-- ==== Sys2Proof/Word.lean ====
section
/-! DEFINITION. The widths of the core's data: bytes, host words, bus offsets and blocks (00_scope.md R9 to R12). -/

namespace Sys2Proof

/-- A byte, bits 7 down to 0 (R11). -/
abbrev Byte := BitVec 8

/-- A 32-bit host word: the width of every register and of every bus transaction (R22, R62), and of a word of the
key schedule (R160). -/
abbrev Word := BitVec 32

/-- A 16-bit byte offset in the core's host window (R60). -/
abbrev Offset := BitVec 16

/-- A 16-byte block, held as its 128-bit value `int(B)`: byte 0 is the most significant byte (R11). -/
abbrev Block := BitVec 128

end Sys2Proof
end

