-- ==== Sys2Proof/Syntax.lean ====
section
/-! DEFINITION. The commands of the core (30_encoding.md R92), one constructor per row of spec/opcode_table.json, and
the one command format (R90). No command has an operand field: every operand is implicit (R91). -/

namespace Sys2Proof

/-- The six commands (R92). -/
inductive Instr where
  /-- EXPAND: expand KEY into SCHED (R166). -/
  | expand
  /-- DERIVE: derive K1 and K2 from SCHED (R185). -/
  | derive
  /-- ENCRYPT: encrypt DIN under SCHED into DOUT (R135). -/
  | encrypt
  /-- CMAC: compute the tag of the message in the message RAM under KEY (R230). -/
  | cmac
  /-- TRUNC: truncate TAG in place to TLEN bits (R235). -/
  | trunc
  /-- CLEAR: retire KEY and every value derived from it (R260). -/
  | clear
  deriving DecidableEq, Repr

/-- The command word by its two fields (R90). -/
structure CmdWord where
  /-- Bits [31:4], reserved, must be 0. -/
  rsv : BitVec 28
  /-- Bits [3:0], the command selector. -/
  op : BitVec 4
  deriving DecidableEq, Repr

end Sys2Proof
end

