-- ==== Sys2Proof/WellFormed.lean ====
section
/-! DEFINITION. When a command word is well formed (30_encoding.md R90, R92, R96). A term of `Instr` has no field, so
every one of them is well formed; what can be ill formed is the word a host writes to CMD. -/

namespace Sys2Proof

/-- The reserved bits are 0 (R90). -/
def CmdWord.rsvClear (c : CmdWord) : Bool := c.rsv == 0#28

/-- OP selects a command: it is one of 1 to 6 (R92). -/
def CmdWord.opAssigned (c : CmdWord) : Bool := 1 ≤ c.op.toNat && c.op.toNat ≤ 6

/-- A well-formed command word (R96). -/
def CmdWord.wellFormed (c : CmdWord) : Bool := c.rsvClear && c.opAssigned

end Sys2Proof
end

