-- ==== Sys2Proof/Decode.lean ====
section
/-! DEFINITION. The decoder of command words, total and rejecting by name, and the encoder, both from the opcode map
of 30_encoding.md (R90, R92, R93, R96). -/

namespace Sys2Proof

/-- What a command word is: a command, or an illegal word by the reason of R93 that makes it one. -/
inductive Decoded where
  /-- One of the six commands. -/
  | command (i : Instr)
  /-- RSV is not 0, whatever OP is (R93). -/
  | reservedBitsSet
  /-- RSV is 0 and OP is 0 or 7 to 15 (R93). -/
  | opNotAssigned
  deriving DecidableEq, Repr

/-- The two fields of a command word (R90). -/
def fieldsOf (v : Word) : CmdWord := ⟨v.extractLsb' 4 28, v.extractLsb' 0 4⟩

/-- The opcode map (R92). -/
def commandOfOp (op : BitVec 4) : Option Instr :=
  match op.toNat with
  | 1 => some .expand
  | 2 => some .derive
  | 3 => some .encrypt
  | 4 => some .cmac
  | 5 => some .trunc
  | 6 => some .clear
  | _ => none

/-- Decode a command word (R96). The meaning of a word depends on no state (R94). -/
def decode (v : Word) : Decoded :=
  if (fieldsOf v).rsv ≠ 0#28 then .reservedBitsSet
  else
    match commandOfOp (fieldsOf v).op with
    | some i => .command i
    | none => .opNotAssigned

/-- `legal(v)` (R96). -/
def legal (v : Word) : Bool :=
  v.extractLsb' 4 28 == 0#28 && [1, 2, 3, 4, 5, 6].contains (v.extractLsb' 0 4).toNat

/-- The OP value of a command (R92). -/
def opOf : Instr → BitVec 4
  | .expand => 0x1#4
  | .derive => 0x2#4
  | .encrypt => 0x3#4
  | .cmac => 0x4#4
  | .trunc => 0x5#4
  | .clear => 0x6#4

/-- The command word of a command: RSV is 0 (R90, R92). -/
def encode (i : Instr) : Word := 0#28 ++ opOf i

/-- The command that the decoder reads from a row's bits as spec/opcode_table.json numbers them. A command is one
32-bit word and there is no other length (R90); a number that is no 32-bit word is none. -/
def decodeTableWord (nbits w : Nat) : Option Instr :=
  if w % 2 ^ nbits < 2 ^ 32 then
    match decode (BitVec.ofNat 32 (w % 2 ^ nbits)) with
    | .command i => some i
    | .reservedBitsSet => none
    | .opNotAssigned => none
  else none

end Sys2Proof
end

