-- ==== Sys2Proof/Config.lean ====
section
/-! DEFINITION. What an implementation fixes and the spec leaves open: MSG_CAP and MSG_INIT, as constants with no
body, and the identification value (00_scope.md R10, 10_state.md R20). LATENCY is no constant here: it is where a
completion stands among the events of `State.port` (notes/assumptions/1.md). SBOX and RCON (R44) stand beside the
functions that read them, in Machine/BlockCipher.lean and Machine/KeySchedule.lean. -/

namespace Sys2Proof

/-- A size of the message RAM that the spec allows: a multiple of 4 with 16 ≤ MSG_CAP ≤ 32768 (R10, D5). The field
counts the words above the least size, so every value of the type is an allowed size and every allowed size is a
value of the type. -/
structure Cap where
  extraWords : Fin 8189
  deriving DecidableEq, Repr, Inhabited

/-- MSG_CAP in bytes. -/
def Cap.bytes (c : Cap) : Nat := 4 * c.extraWords.val + 16

/-- MSG_CAP of the machine after reset: an open parameter (R10, P1). No body: nothing can be proved of it but that
it is an allowed size. notes/assumptions/4.md. -/
opaque Config.msgCap : Cap

/-- MSG_INIT: what byte i of the message RAM holds at power-on, before any host write has reached it (R322, P3). No
body: a claim holds whatever the bytes are. notes/assumptions/5.md. -/
opaque Config.msgInit : Nat → Byte

/-- ID_VALUE, what the ID register always reads: "CMAC" in ASCII (R34, D29). -/
def Config.idValue : Word := 0x434D4143#32

end Sys2Proof
end

