-- ==== Sys2Proof/Machine/State.lean ====
section
/-! DEFINITION. The state of the core (10_state.md R20 to R48), the events that step it, and the state after reset. -/

namespace Sys2Proof.Machine

/-- The engine state ENG (R21). -/
inductive Eng where
  /-- No command is accepted and not completed. -/
  | idle
  /-- The command `op` is accepted and not completed. -/
  | busy (op : Instr)
  deriving DecidableEq, Repr

/-- The named errors (60_exceptions.md R280). "No error" is the absence of one; codes 0x6 to 0xF are reserved and
have no name (P6). -/
inductive ErrCode where
  /-- 0x1, named by the source's taxonomy and never raised (R281). -/
  | invalidKeyLength
  /-- 0x2 (R282). -/
  | invalidTagLength
  /-- 0x3 (R283). -/
  | illegalCommand
  /-- 0x4 (R284). -/
  | scheduleNotValid
  /-- 0x5 (R285). -/
  | messageTooLong
  deriving DecidableEq, Repr

/-- The message RAM (R43): the bytes a host has written, as (byte index, byte) pairs with the index rising. A byte
that is not listed has not been written since power-on and holds MSG_INIT (R322); `msgByte` of Machine/Ops.lean is
the one place that says so. notes/assumptions/5.md. -/
abbrev Memory := List Host.Cell

/-- The canonical form of a memory: indexes strictly rising, so none is listed twice. -/
abbrev Memory.wf (m : Memory) : Prop := m.Pairwise fun x y => x.1 < y.1

/-- The 176-byte RoundKeySchedule SCHED by its 44 words (R42). -/
abbrev Schedule := Vector Word 44

/-- One entry of the total order of R73: a host transaction (R60), a completion (R99) or a reset (R320). -/
inductive Event where
  /-- `Write(off, v)`. -/
  | write (off : Offset) (v : Word)
  /-- `Read(off)`. -/
  | read (off : Offset)
  /-- The core takes its completion step now, if it has one. -/
  | complete
  /-- The reset input is asserted. -/
  | reset
  deriving DecidableEq, Repr

/-- The MODEL's own state, not the spec's: what the outside does to the core and what it has seen.
notes/assumptions/1.md, 6.md. -/
structure Port where
  /-- The events still to come, the next one first. -/
  pending : List Event
  /-- The values that reads have returned, the latest first. -/
  returned : List Word
  deriving DecidableEq, Repr

/-- The state of the core. STATUS.BUSY is no field: it is 1 exactly when `eng` is busy (R25). -/
structure State where
  /-- ENG (R21). -/
  eng : Eng
  /-- STATUS.DONE (R26). -/
  done : Bool
  /-- STATUS.SCHED_VALID (R27). -/
  schedValid : Bool
  /-- STATUS.SUBKEY_VALID (R28). -/
  subkeyValid : Bool
  /-- STATUS.WERR (R29). -/
  werr : Bool
  /-- STATUS.ERRCODE (R30). -/
  errcode : Option ErrCode
  /-- TLEN (R31). -/
  tlen : Word
  /-- MSG_LEN (R32). -/
  msgLen : Word
  /-- KEY (R35). -/
  key : Block
  /-- DIN (R36). -/
  din : Block
  /-- DOUT (R37). -/
  dout : Block
  /-- TAG (R38). -/
  tag : Block
  /-- K1 (R39). -/
  k1 : Block
  /-- K2 (R40). -/
  k2 : Block
  /-- SCHED (R42). -/
  sched : Schedule
  /-- The message RAM (R43). -/
  msg : Memory
  /-- MSG_CAP, the configuration of this core (R10, R33): no step writes it. notes/assumptions/4.md. -/
  cap : Cap
  /-- The model's own: events to come and values returned. -/
  port : Port
  deriving DecidableEq, Repr

/-- The core has no trap and no bus error (R60, R289), and every command has a meaning in every state, so no step
ends in a fault: there is no reason to name. notes/assumptions/10.md. -/
inductive Fault where
  deriving DecidableEq, Repr

/-- Why a step has no meaning. -/
inductive Refusal where
  /-- Raised by an arm of `exec` whose command has no meaning yet; no arm does so now. Safe: the machine stops. -/
  | notModelled (mnemonic : String)
  deriving DecidableEq, Repr

/-- The machine right after power-on (R48, R320, R322): idle, STATUS 0, TLEN 128, everything else 0, no byte of the
message RAM written. The events to come and the values returned are the model's own (notes/assumptions/1.md, 6.md). -/
def State.reset : State where
  eng := .idle
  done := false
  schedValid := false
  subkeyValid := false
  werr := false
  errcode := none
  tlen := 0x00000080#32
  msgLen := 0x00000000#32
  key := 0#128
  din := 0#128
  dout := 0#128
  tag := 0#128
  k1 := 0#128
  k2 := 0#128
  sched := Vector.replicate 44 0#32
  msg := []
  cap := Config.msgCap
  port := ⟨[], []⟩

end Sys2Proof.Machine
end

