-- ==== Sys2Proof/Machine/Operands.lean ====
section
/-! DEFINITION. The views of operands: bytes and words of a block (00_scope.md R11, 10_state.md R41), bytes of a word
(R160), and the byte, word and round-key views of the schedule (R42). -/

namespace Sys2Proof.Machine

/-- Byte k of a block, byte 0 the most significant (R11). -/
def blockByte (b : Block) (k : Nat) : Byte := b.extractLsb' (8 * (15 - k)) 8

/-- The block whose bytes 0 to 15 are `f 0` to `f 15`: the inverse of `int` (R11). -/
def blockOfBytes (f : Nat → Byte) : Block :=
  (List.range 16).foldl (fun acc k => (acc <<< 8) ||| (f k).setWidth 128) 0#128

/-- The block whose bytes are the first 16 of a byte sequence. -/
def blockOfList (l : List Byte) : Block := blockOfBytes fun k => l.getD k 0#8

/-- Word j of a block, j = 0 to 3: bytes 4j to 4j+3, byte 4j in bits [31:24] (R41). -/
def blockWord (b : Block) (j : Nat) : Word := b.extractLsb' (32 * (3 - j)) 32

/-- The block whose words 0 to 3 are `f 0` to `f 3` (R41). -/
def blockOfWords (f : Nat → Word) : Block := f 0 ++ f 1 ++ f 2 ++ f 3

/-- A block with its word j replaced (R41). -/
def blockSetWord (b : Block) (j : Nat) (v : Word) : Block :=
  blockOfWords fun i => if i = j then v else blockWord b i

/-- Byte k of a word, k = 0 to 3, byte 0 in bits [31:24] (R64, R160). -/
def wordByte (w : Word) (k : Nat) : Byte := w.extractLsb' (8 * (3 - k)) 8

/-- `b0 ‖ b1 ‖ b2 ‖ b3` (R64, R160). -/
def wordOfBytes (b0 b1 b2 b3 : Byte) : Word := b0 ++ b1 ++ b2 ++ b3

/-- Word i of the schedule, i = 0 to 43 (R42, R160). -/
def schedWord (S : Schedule) (i : Nat) : Word := S.toList.getD i 0#32

/-- Byte k of the schedule, k = 0 to 175 (R42). -/
def schedByte (S : Schedule) (k : Nat) : Byte := wordByte (schedWord S (k / 4)) (k % 4)

/-- Round key r of the schedule, r = 0 to 10: `SCHED[16r .. 16r+15]` as a block (R42). -/
def roundKey (S : Schedule) (r : Nat) : Block := blockOfWords fun j => schedWord S (4 * r + j)

end Sys2Proof.Machine
end

