-- ==== Sys2Proof/Machine/Flags.lean ====
section
/-! DEFINITION. STATUS: the word a read of it returns (10_state.md R24) and the four ways its fields change around a
command (R25 to R30; 30_encoding.md R95, R97, R99; 60_exceptions.md R290) and at a dropped write (20_memory.md R68).
The core has no condition code and no arithmetic flag (R47). -/

namespace Sys2Proof.Machine

/-- The 4-bit ERRCODE value (R280). -/
def codeOf : Option ErrCode → BitVec 4
  | none => 0x0#4
  | some .invalidKeyLength => 0x1#4
  | some .invalidTagLength => 0x2#4
  | some .illegalCommand => 0x3#4
  | some .scheduleNotValid => 0x4#4
  | some .messageTooLong => 0x5#4

/-- STATUS.BUSY (R25). -/
def busyBit (s : State) : Bool :=
  match s.eng with
  | .idle => false
  | .busy _ => true

/-- The STATUS word (R24). -/
def statusWord (s : State) : Word :=
  0#20 ++ codeOf s.errcode ++ 0#3 ++ BitVec.ofBool s.werr ++ BitVec.ofBool s.subkeyValid ++
    BitVec.ofBool s.schedValid ++ BitVec.ofBool s.done ++ BitVec.ofBool (busyBit s)

/-- The first line of an issue: DONE, WERR and ERRCODE become 0 (R95). -/
def clearReport (s : State) : State := { s with done := false, werr := false, errcode := none }

/-- `raise E`: the error completion that ends an issue step (R290). Taking an error is this and nothing more: no
control transfer, no saved state, no mode, no vector (R289); and there is no return from it (R291). -/
def raiseError (e : ErrCode) (s : State) : State := { s with errcode := some e, done := true }

/-- Accept a command: `ENG <- BUSY(op)`, and with it STATUS.BUSY (R97). -/
def accept (i : Instr) (s : State) : State := { s with eng := .busy i }

/-- The end of a completion step: ENG becomes IDLE, BUSY 0 and DONE 1 (R99). -/
def finish (s : State) : State := { s with eng := .idle, done := true }

/-- A host write that arrives while the core is busy: WERR becomes 1 and nothing else changes (R68). -/
def dropWrite (s : State) : State := { s with werr := true }

end Sys2Proof.Machine
end

