-- ==== Sys2Proof/Machine/Ops.lean ====
section
/-! DEFINITION. The operations the commands and the bus share: the message RAM (20_memory.md R64, R66), the issue
checks (30_encoding.md R96, 60_exceptions.md R286), the two steps of a command (R95, R97, R99) and reset (R320). -/

namespace Sys2Proof.Machine

/-- The byte listed at index a, if a host has written it. -/
def memGet : Memory → Nat → Option Byte
  | [], _ => none
  | (k, w) :: m, a => if k = a then some w else memGet m a

/-- The memory with byte a written. It keeps the canonical form (Laws/Memory.lean). -/
def memSet : Memory → Nat → Byte → Memory
  | [], a, v => [(a, v)]
  | (k, w) :: m, a, v =>
    if a < k then (a, v) :: (k, w) :: m
    else if a = k then (a, v) :: m
    else (k, w) :: memSet m a v

/-- `MSG[a]`: the byte last written there, or MSG_INIT (R43, R322). -/
def msgByte (s : State) (a : Nat) : Byte := (memGet s.msg a).getD (Config.msgInit a)

/-- The message RAM word j: `MSG[4j] ‖ MSG[4j+1] ‖ MSG[4j+2] ‖ MSG[4j+3]` (R64). -/
def msgWord (s : State) (j : Nat) : Word :=
  wordOfBytes (msgByte s (4 * j)) (msgByte s (4 * j + 1)) (msgByte s (4 * j + 2)) (msgByte s (4 * j + 3))

/-- The memory after an idle `Write(0x8000 + 4j, v)` (R64). -/
def memSetWord (m : Memory) (j : Nat) (v : Word) : Memory :=
  memSet (memSet (memSet (memSet m (4 * j) (wordByte v 0)) (4 * j + 1) (wordByte v 1))
    (4 * j + 2) (wordByte v 2)) (4 * j + 3) (wordByte v 3)

/-- `MemRead(i, n)`: the n message bytes from byte i on, in increasing order (R66). -/
def memRead (s : State) (i n : Nat) : List Byte := (List.range n).map fun k => msgByte s (i + k)

/-- The issue check of DERIVE and ENCRYPT: SCHED_VALID = 1 (R284). -/
def checkSched (s : State) : Option ErrCode := if s.schedValid then none else some .scheduleNotValid

/-- The issue check of CMAC and TRUNC: TLEN ≤ 128, unsigned (R282). -/
def checkTlen (s : State) : Option ErrCode := if s.tlen.toNat ≤ 128 then none else some .invalidTagLength

/-- The second issue check of CMAC: MSG_LEN ≤ MSG_CAP (R285). -/
def checkMsgLen (s : State) : Option ErrCode :=
  if s.msgLen.toNat ≤ s.cap.bytes then none else some .messageTooLong

/-- The issue checks of each command, in the order of R286; the error reported is the first that fails (R96). -/
def issueCheck (i : Instr) (s : State) : Option ErrCode :=
  match i with
  | .expand => none
  | .derive => checkSched s
  | .encrypt => checkSched s
  | .cmac => (checkTlen s).or (checkMsgLen s)
  | .trunc => checkTlen s
  | .clear => none

/-- The issue step of a legal command (R95): clear the report, check, then raise or accept. -/
def issue (i : Instr) (s : State) : State :=
  match issueCheck i s with
  | some e => raiseError e (clearReport s)
  | none => accept i (clearReport s)

/-- The issue step of an illegal command word (R95, R262). -/
def issueIllegal (s : State) : State := raiseError .illegalCommand (clearReport s)

/-- The completion step of a command whose results are `effect`: all of them, then ENG, BUSY and DONE, as one step
(R99). -/
def complete (effect : State → State) (s : State) : State := finish (effect s)

/-- The step of command i in state s: its issue while the core is idle (R95), its completion while the core is busy
with it (R99). While the core is busy with another command, a CMD write of i is dropped as every write is (R68). The
CMD write of i that arrives while i itself runs never comes here: `busWrite` drops it first. notes/assumptions/3.md. -/
def command (i : Instr) (effect : State → State) (s : State) : State :=
  match s.eng with
  | .idle => issue i s
  | .busy op => if op = i then complete effect s else dropWrite s

/-- The reset event (R320): every element at its value of R48, a running command abandoned (R321), the message RAM
unchanged (R322). MSG_CAP is configuration, and the port is the model's own. -/
def applyReset (s : State) : State :=
  { State.reset with msg := s.msg, cap := s.cap, port := s.port }

end Sys2Proof.Machine
end

