-- ==== Sys2Proof/Machine/BlockCipher.lean ====
section
/-! DEFINITION. BlockCipher, AES-128 encryption of one block (40_block_cipher.md R120 to R134), and the ENCRYPT
command (R135). The core has no decryption (R132). -/

namespace Sys2Proof.Machine

/-- The substitution table by its rows: row is the high nibble of the byte, column the low nibble (R121). -/
def sboxRows : List Block := [
  0x637c777bf26b6fc53001672bfed7ab76#128,
  0xca82c97dfa5947f0add4a2af9ca472c0#128,
  0xb7fd9326363ff7cc34a5e5f171d83115#128,
  0x04c723c31896059a071280e2eb27b275#128,
  0x09832c1a1b6e5aa0523bd6b329e32f84#128,
  0x53d100ed20fcb15b6acbbe394a4c58cf#128,
  0xd0efaafb434d338545f9027f503c9fa8#128,
  0x51a3408f929d38f5bcb6da2110fff3d2#128,
  0xcd0c13ec5f974417c4a77e3d645d1973#128,
  0x60814fdc222a908846eeb814de5e0bdb#128,
  0xe0323a0a4906245cc2d3ac629195e479#128,
  0xe7c8376d8dd54ea96c56f4ea657aae08#128,
  0xba78252e1ca6b4c6e8dd741f4bbd8b8a#128,
  0x703eb5664803f60e613557b986c11d9e#128,
  0xe1f8981169d98e949b1e87e9ce5528df#128,
  0x8ca1890dbfe6426841992d0fb054bb16#128]

/-- `SBOX[b]` (R121). -/
def sbox (b : Byte) : Byte :=
  blockByte (sboxRows.getD (b.extractLsb' 4 4).toNat 0#128) (b.extractLsb' 0 4).toNat

/-- `xtime(b)`, multiplication by {02} (R123). -/
def xtime (b : Byte) : Byte := (b <<< 1) ^^^ (if b.getLsbD 7 then 0x1B#8 else 0x00#8)

/-- `xtime^i(a)`, the i-fold application of xtime (R124). -/
def xtimeIter : Nat → Byte → Byte
  | 0, a => a
  | i + 1, a => xtime (xtimeIter i a)

/-- `gmul(a, b)`, the product in GF(2^8) (R124). -/
def gmul (a b : Byte) : Byte :=
  (List.range 8).foldl (fun r i => if b.getLsbD i then r ^^^ xtimeIter i a else r) 0x00#8

/-- `s[r][c] = B[r + 4c]` (R125; 90_conflicts.md C1). -/
def cell (b : Block) (r c : Nat) : Byte := blockByte b (r + 4 * c)

/-- The block whose state has `f r c` in row r and column c (R125). -/
def blockOfCells (f : Nat → Nat → Byte) : Block := blockOfBytes fun k => f (k % 4) (k / 4)

/-- SubBytes (R126). -/
def subBytes (b : Block) : Block := blockOfBytes fun k => sbox (blockByte b k)

/-- ShiftRows: `s'[r][c] = s[r][(c + r) mod 4]` (R127). -/
def shiftRows (b : Block) : Block := blockOfCells fun r c => cell b r ((c + r) % 4)

/-- Row r of the new column made from the column (a0, a1, a2, a3) (R128). -/
def mixColumn (a0 a1 a2 a3 : Byte) (r : Nat) : Byte :=
  match r with
  | 0 => gmul a0 2 ^^^ gmul a1 3 ^^^ a2 ^^^ a3
  | 1 => a0 ^^^ gmul a1 2 ^^^ gmul a2 3 ^^^ a3
  | 2 => a0 ^^^ a1 ^^^ gmul a2 2 ^^^ gmul a3 3
  | _ => gmul a0 3 ^^^ a1 ^^^ a2 ^^^ gmul a3 2

/-- MixColumns: each column is mixed by itself (R128). -/
def mixColumns (b : Block) : Block :=
  blockOfCells fun r c => mixColumn (cell b 0 c) (cell b 1 c) (cell b 2 c) (cell b 3 c) r

/-- AddRoundKey (R129). -/
def addRoundKey (b : Block) (S : Schedule) (r : Nat) : Block := b ^^^ roundKey S r

/-- Full round r, r = 1 to 9 (R130). -/
def fullRound (S : Schedule) (r : Nat) (st : Block) : Block :=
  addRoundKey (mixColumns (shiftRows (subBytes st))) S r

/-- `Encrypt(S, B)` (R130). -/
def encrypt (S : Schedule) (b : Block) : Block :=
  let st := (List.range 9).foldl (fun st i => fullRound S (i + 1) st) (addRoundKey b S 0)
  addRoundKey (shiftRows (subBytes st)) S 10

/-- ENCRYPT's results (R135). -/
def encryptEffect (s : State) : State := { s with dout := encrypt s.sched s.din }

/-- ENCRYPT (R135). -/
def execEncrypt (s : State) : Host.Outcome State Fault Refusal := .next (command .encrypt encryptEffect s)

end Sys2Proof.Machine
end

