-- ==== Sys2Proof/Machine/KeySchedule.lean ====
section
/-! DEFINITION. KeySchedule, the expansion of a key into 44 words (41_key_schedule.md R160 to R165), and the EXPAND
command (R166). -/

namespace Sys2Proof.Machine

/-- The round-constant table `RCON[0..10]` (R161). -/
def rconTable : List Byte :=
  [0x00#8, 0x01#8, 0x02#8, 0x04#8, 0x08#8, 0x10#8, 0x20#8, 0x40#8, 0x80#8, 0x1B#8, 0x36#8]

/-- `RCON[r]` (R161). -/
def rcon (r : Nat) : Byte := rconTable.getD r 0x00#8

/-- `RotWord([a0, a1, a2, a3]) = [a1, a2, a3, a0]` (R162). -/
def rotWord (w : Word) : Word := wordOfBytes (wordByte w 1) (wordByte w 2) (wordByte w 3) (wordByte w 0)

/-- SubWord, byte-wise through SBOX (R162). -/
def subWord (w : Word) : Word :=
  wordOfBytes (sbox (wordByte w 0)) (sbox (wordByte w 1)) (sbox (wordByte w 2)) (sbox (wordByte w 3))

/-- The word that is XORed into `w[i-4]`, from `t = w[i-1]` (R163; RCON indexed by `i div 4`, R165). -/
def scheduleTerm (i : Nat) (t : Word) : Word :=
  if i % 4 = 0 then subWord (rotWord t) ^^^ wordOfBytes (rcon (i / 4)) 0x00#8 0x00#8 0x00#8 else t

/-- The first n + 4 words of the expansion of K (R163). -/
def expandWords (K : Block) : Nat → List Word
  | 0 => [blockWord K 0, blockWord K 1, blockWord K 2, blockWord K 3]
  | n + 1 =>
    let ws := expandWords K n
    ws ++ [ws.getD n 0#32 ^^^ scheduleTerm (n + 4) (ws.getD (n + 3) 0#32)]

theorem expandWords_length (K : Block) (n : Nat) : (expandWords K n).length = n + 4 := by
  induction n with
  | zero => rfl
  | succ n ih => simp [expandWords, ih]

/-- `Expand(K)`: always exactly 44 words, 176 bytes (R163, R164). -/
def expand (K : Block) : Schedule := ⟨(expandWords K 40).toArray, expandWords_length K 40⟩

/-- EXPAND's results (R166). -/
def expandEffect (s : State) : State := { s with sched := expand s.key, schedValid := true }

/-- EXPAND (R166). -/
def execExpand (s : State) : Host.Outcome State Fault Refusal := .next (command .expand expandEffect s)

end Sys2Proof.Machine
end

