-- ==== Sys2Proof/Machine/MessageFormatter.lean ====
section
/-! DEFINITION. MessageFormatter: the block partition of a message and its last block (43_message_formatter.md R200
to R206). It has no command of its own; CMAC uses it. -/

namespace Sys2Proof.Machine

/-- The block count `max(1, (len + 15) div 16)`; the empty message has one block (R200, R201). -/
def blockCount (len : Nat) : Nat := max 1 ((len + 15) / 16)

/-- A message is complete when it is not empty and its length is a multiple of 16 (R202). -/
def isComplete (len : Nat) : Bool := 0 < len && len % 16 == 0

/-- Block i of a message, `M[16i .. 16i+15]` (R203). -/
def msgBlock (M : List Byte) (i : Nat) : Block := blockOfList ((M.drop (16 * i)).take 16)

/-- `pad(rem)`: the real bytes, one 0x80 byte, then zero bytes up to 16 (R205). -/
def pad (rem : List Byte) : Block :=
  blockOfList (rem ++ 0x80#8 :: List.replicate (15 - rem.length) 0x00#8)

/-- `FormatLastBlock(M, K1, K2)`: the block count and the last block (R204). -/
def formatLastBlock (M : List Byte) (K1 K2 : Block) : Nat × Block :=
  let n := blockCount M.length
  if isComplete M.length then (n, msgBlock M (n - 1) ^^^ K1)
  else (n, pad (M.drop (16 * (n - 1))) ^^^ K2)

end Sys2Proof.Machine
end

