-- ==== Sys2Proof/Machine/SubkeyDerivation.lean ====
section
/-! DEFINITION. SubkeyDerivation, doubling in GF(2^128) (42_subkey_derivation.md R180 to R184), and the DERIVE
command (R185). -/

namespace Sys2Proof.Machine

/-- `dbl(B)`, the left shift and reduce of a block (R180). -/
def dbl (b : Block) : Block := if b.getLsbD 127 then (b <<< 1) ^^^ 0x87#128 else b <<< 1

/-- `Derive(S)`, the pair (K1, K2) (R181). -/
def derive (S : Schedule) : Block × Block :=
  let L := encrypt S 0#128
  let K1 := dbl L
  let K2 := dbl K1
  (K1, K2)

/-- DERIVE's results (R185). -/
def deriveEffect (s : State) : State :=
  { s with k1 := (derive s.sched).1, k2 := (derive s.sched).2, subkeyValid := true }

/-- DERIVE (R185). -/
def execDerive (s : State) : Host.Outcome State Fault Refusal := .next (command .derive deriveEffect s)

end Sys2Proof.Machine
end

