-- ==== Sys2Proof/Machine/CmacEngine.lean ====
section
/-! DEFINITION. CmacEngine: the CBC chain and the truncation unit (44_cmac_engine.md R220 to R227), and the CMAC and
TRUNC commands (R230, R235). -/

namespace Sys2Proof.Machine

/-- `Chain(S, M, last, n)`: no IV, the first n - 1 blocks of M in order, then `last` (R220). -/
def chain (S : Schedule) (M : List Byte) (last : Block) (n : Nat) : Block :=
  let X := (List.range (n - 1)).foldl (fun X i => encrypt S (X ^^^ msgBlock M i)) 0#128
  encrypt S (X ^^^ last)

/-- Byte k of `Truncate(T, tlen)` for tlen < 128 (R222; 90_conflicts.md C3). -/
def truncatedByte (T : Block) (tlen k : Nat) : Byte :=
  if k < tlen / 8 then blockByte T k
  else if k = tlen / 8 ∧ tlen % 8 ≠ 0 then blockByte T k &&& (0xFF#8 <<< (8 - tlen % 8))
  else 0x00#8

/-- `Truncate(T, tlen)`: keep the tlen most significant bits (R222). -/
def truncateTag (T : Block) (tlen : Nat) : Block :=
  if tlen < 128 then blockOfBytes (truncatedByte T tlen) else T

/-- `Cmac(K, M, tlen)` (R226). -/
def cmac (K : Block) (M : List Byte) (tlen : Nat) : Block :=
  let S := expand K
  let subkeys := derive S
  let formatted := formatLastBlock M subkeys.1 subkeys.2
  truncateTag (chain S M formatted.2 formatted.1) tlen

/-- The message of a CMAC command, `MemRead(0, MSG_LEN)` (R64, R230). -/
def message (s : State) : List Byte := memRead s 0 s.msgLen.toNat

/-- CMAC's results (R230). -/
def cmacEffect (s : State) : State :=
  { s with
    tag := cmac s.key (message s) s.tlen.toNat
    sched := expand s.key
    k1 := (derive (expand s.key)).1
    k2 := (derive (expand s.key)).2
    schedValid := true
    subkeyValid := true }

/-- CMAC (R230). -/
def execCmac (s : State) : Host.Outcome State Fault Refusal := .next (command .cmac cmacEffect s)

/-- TRUNC's results (R235). -/
def truncEffect (s : State) : State := { s with tag := truncateTag s.tag s.tlen.toNat }

/-- TRUNC (R235). -/
def execTrunc (s : State) : Host.Outcome State Fault Refusal := .next (command .trunc truncEffect s)

end Sys2Proof.Machine
end

