-- ==== Sys2Proof/Machine/Control.lean ====
section
/-! DEFINITION. The CLEAR command (45_control.md R260, R261). Illegal command words (R262) are `issueIllegal` of
Machine/Ops.lean. -/

namespace Sys2Proof.Machine

/-- CLEAR's results: every key-derived value and both valid bits are zeroed; TLEN, MSG_LEN, DIN and the message RAM
stay (R260). -/
def clearEffect (s : State) : State :=
  { s with
    key := 0#128
    sched := Vector.replicate 44 0#32
    k1 := 0#128
    k2 := 0#128
    dout := 0#128
    tag := 0#128
    schedValid := false
    subkeyValid := false }

/-- CLEAR (R260). -/
def execClear (s : State) : Host.Outcome State Fault Refusal := .next (command .clear clearEffect s)

end Sys2Proof.Machine
end

