-- ==== Sys2Proof/Machine/Dispatch.lean ====
section
/-! DEFINITION. The meaning of each command (30_encoding.md R92), one arm per constructor. -/

namespace Sys2Proof.Machine

/-- The step of command i in state s: its issue while idle, its completion while busy with it (R95, R99). -/
def exec (i : Instr) (s : State) : Host.Outcome State Fault Refusal :=
  match i with
  | .expand => Sys2Proof.Machine.execExpand s
  | .derive => Sys2Proof.Machine.execDerive s
  | .encrypt => Sys2Proof.Machine.execEncrypt s
  | .cmac => Sys2Proof.Machine.execCmac s
  | .trunc => Sys2Proof.Machine.execTrunc s
  | .clear => Sys2Proof.Machine.execClear s

end Sys2Proof.Machine
end

