-- ==== Sys2Proof/Machine/Bus.lean ====
section
/-! DEFINITION. The host port: the register map (10_state.md R22), reads and writes (20_memory.md R60 to R69), and
what each event of the total order does (R73). -/

namespace Sys2Proof.Machine

/-- What stands at an offset (R22). A block register carries its word number j, the message RAM its word index j. -/
inductive Target where
  | cmd
  | status
  | tlen
  | msgLen
  | cap
  | id
  | key (j : Nat)
  | din (j : Nat)
  | dout (j : Nat)
  | tag (j : Nat)
  | k1 (j : Nat)
  | k2 (j : Nat)
  | msg (j : Nat)
  | reserved
  deriving DecidableEq, Repr

/-- Offset bits [1:0] are ignored (R61). -/
def alignedOffset (off : Offset) : Nat := (off &&& 0xFFFC#16).toNat

/-- The register map (R22, R63, R64), for a message RAM of `cap` bytes. -/
def targetOf (cap : Nat) (off : Offset) : Target :=
  let a := alignedOffset off
  if a = 0x0000 then .cmd
  else if a = 0x0004 then .status
  else if a = 0x0008 then .tlen
  else if a = 0x000C then .msgLen
  else if a = 0x0010 then .cap
  else if a = 0x0014 then .id
  else if a < 0x0020 then .reserved
  else if a < 0x0030 then .key ((a - 0x0020) / 4)
  else if a < 0x0040 then .din ((a - 0x0030) / 4)
  else if a < 0x0050 then .dout ((a - 0x0040) / 4)
  else if a < 0x0060 then .tag ((a - 0x0050) / 4)
  else if a < 0x0070 then .k1 ((a - 0x0060) / 4)
  else if a < 0x0080 then .k2 ((a - 0x0070) / 4)
  else if a < 0x8000 then .reserved
  else if a < 0x8000 + cap then .msg ((a - 0x8000) / 4)
  else .reserved

/-- What a read of a target returns: CMD, KEY and reserved offsets read 0 (R22, R23, R31 to R41, R63, R64). -/
def readTarget (s : State) : Target → Word
  | .cmd => 0x00000000#32
  | .status => statusWord s
  | .tlen => s.tlen
  | .msgLen => s.msgLen
  | .cap => BitVec.ofNat 32 s.cap.bytes
  | .id => Config.idValue
  | .key _ => 0x00000000#32
  | .din j => blockWord s.din j
  | .dout j => blockWord s.dout j
  | .tag j => blockWord s.tag j
  | .k1 j => blockWord s.k1 j
  | .k2 j => blockWord s.k2 j
  | .msg j => msgWord s j
  | .reserved => 0x00000000#32

/-- `Read(off)` (R60, R67): the value; a read changes no state. -/
def busRead (s : State) (off : Offset) : Word := readTarget s (targetOf s.cap.bytes off)

/-- The issue of command word v while idle (R95). -/
def issueWord (v : Word) (s : State) : Host.Outcome State Fault Refusal :=
  match decode v with
  | .command i => exec i s
  | .reservedBitsSet => .next (issueIllegal s)
  | .opNotAssigned => .next (issueIllegal s)

/-- An idle write of v to a target (R69): CMD issues; KEY stores and clears both valid bits (R35); TLEN, MSG_LEN and
DIN store (R31, R32, R36); the message RAM stores four bytes (R64); every other target ignores it (R63). -/
def idleWrite (v : Word) (s : State) : Target → Host.Outcome State Fault Refusal
  | .cmd => issueWord v s
  | .tlen => .next { s with tlen := v }
  | .msgLen => .next { s with msgLen := v }
  | .key j => .next { s with key := blockSetWord s.key j v, schedValid := false, subkeyValid := false }
  | .din j => .next { s with din := blockSetWord s.din j v }
  | .msg j => .next { s with msg := memSetWord s.msg j v }
  | .status => .next s
  | .cap => .next s
  | .id => .next s
  | .dout _ => .next s
  | .tag _ => .next s
  | .k1 _ => .next s
  | .k2 _ => .next s
  | .reserved => .next s

/-- `Write(off, v)`: dropped while busy, whatever the offset (R68); otherwise as the target says (R69). -/
def busWrite (off : Offset) (v : Word) (s : State) : Host.Outcome State Fault Refusal :=
  match s.eng with
  | .busy _ => .next (dropWrite s)
  | .idle => idleWrite v s (targetOf s.cap.bytes off)

/-- The core's own step: the completion of the command it has accepted (R99); an idle core takes no step (R299). -/
def coreStep (s : State) : Host.Outcome State Fault Refusal :=
  match s.eng with
  | .idle => .next s
  | .busy op => exec op s

/-- What one event does (R60, R67, R99, R320). -/
def takeEvent (e : Event) (s : State) : Host.Outcome State Fault Refusal :=
  match e with
  | .write off v => busWrite off v s
  | .read off => .next { s with port := { s.port with returned := busRead s off :: s.port.returned } }
  | .complete => coreStep s
  | .reset => .next (applyReset s)

/-- The state with the list of events to come replaced. -/
def withPending (s : State) (es : List Event) : State := { s with port := { s.port with pending := es } }

end Sys2Proof.Machine
end

