-- ==== Sys2Proof/Machine/Step.lean ====
section
/-! DEFINITION. One step of the machine: the next entry of the total order of host transactions, completions and
resets (20_memory.md R73), and how a command is placed to be the next one run. -/

namespace Sys2Proof.Machine

/-- One step: the first pending event, taken off the list. With no event pending, a busy core completes its command
(weak fairness, R100: nothing else can come first) and an idle core takes no step (R299). -/
def step (s : State) : Host.Outcome State Fault Refusal :=
  match s.port.pending with
  | [] => coreStep s
  | e :: rest => takeEvent e (withPending s rest)

/-- s with command word w as the next event: a host write of it to CMD (R95). A CMD write issues only while ENG is
IDLE, so ENG is set to IDLE; nothing else changes. A command is one 32-bit word (R90). notes/assumptions/7.md. -/
def State.withFetchWord (s : State) (nbits w : Nat) : State :=
  { withPending s (.write 0x0000#16 (BitVec.ofNat 32 (w % 2 ^ nbits)) :: s.port.pending) with eng := .idle }

end Sys2Proof.Machine
end

