-- ==== Sys2Proof/Safety.lean ====
section
/-! DEFINITION. What holds of the core in every state a run can reach: the spec's own invariants (10_state.md R46) and
what they need to be kept by every step. A safe run is one whose every state meets `MachineInv`. -/

namespace Sys2Proof.Machine

/-- (I1) and (I2) of R46: the valid bits vouch for SCHED, K1 and K2. -/
def CacheInv (s : State) : Prop :=
  (s.schedValid = true → s.sched = expand s.key) ∧
    (s.subkeyValid = true → s.schedValid = true ∧ (s.k1, s.k2) = derive s.sched)

/-- While a command runs, its issue checks still pass, since its inputs keep their values (R68, R99), and DONE and
ERRCODE are still as its issue left them (R95, R287). -/
def EngineInv (s : State) : Prop :=
  ∀ op, s.eng = .busy op → issueCheck op s = none ∧ s.done = false ∧ s.errcode = none

/-- The message RAM is in its canonical form and lists no byte outside MSG[0 .. MSG_CAP-1] (R64). -/
def MemoryInv (s : State) : Prop := Memory.wf s.msg ∧ ∀ c ∈ s.msg, c.1 < s.cap.bytes

/-- Error code 0x1 is never in ERRCODE (R281). -/
def ErrcodeInv (s : State) : Prop := s.errcode ≠ some .invalidKeyLength

/-- The invariant of the machine. -/
structure MachineInv (s : State) : Prop where
  cache : CacheInv s
  engine : EngineInv s
  memory : MemoryInv s
  errcode : ErrcodeInv s

/-- A host transaction: neither a completion nor a reset (R60). -/
def isHostEvent : Event → Bool
  | .write _ _ => true
  | .read _ => true
  | .complete => false
  | .reset => false

/-- A host write (R60). -/
def isWrite : Event → Bool
  | .write _ _ => true
  | .read _ => false
  | .complete => false
  | .reset => false

/-- A host transaction that does not write CMD. -/
def isHostEventOffCmd : Event → Bool
  | .write off _ => alignedOffset off != 0
  | .read _ => true
  | .complete => false
  | .reset => false

/-- k steps, stopping at the first fault or refusal: `Host.Core.run` of the machine (Laws/Command.lean). -/
def runSteps : Nat → State → Host.Outcome State Fault Refusal
  | 0, s => .next s
  | k + 1, s =>
    match step s with
    | .next t => runSteps k t
    | .fault r => .fault r
    | .refused r => .refused r

/-- A run of k steps that neither faults nor is refused and ends in a state that meets the invariant. -/
def SafeRun (k : Nat) (s : State) : Prop := ∃ t, runSteps k s = .next t ∧ MachineInv t

end Sys2Proof.Machine
end

