-- ==== Sys2Proof/Certificates/Slice0/Obligations.lean ====
section
/-! DEFINITION. The statements about the core, each from a rule of spec/; the docstring names the rule. A next state is
written as the record it is, so that every field and every message byte it does not name is unchanged: the frame. -/

open Sys2Proof Sys2Proof.Machine

/-! ### Encoding -/

/-- R92: the six command words, written out, and the commands they select. -/
def Obligations.OpcodeMapSelectsTheSixCommands : Prop :=
  decode 0x00000001#32 = .command .expand ∧ decode 0x00000002#32 = .command .derive ∧
    decode 0x00000003#32 = .command .encrypt ∧ decode 0x00000004#32 = .command .cmac ∧
    decode 0x00000005#32 = .command .trunc ∧ decode 0x00000006#32 = .command .clear

/-- R90, R92, R93, R94: decoding and encoding agree, both ways, on every 32-bit word and every command. -/
def Obligations.DecodeAgreesWithEncode : Prop :=
  (∀ i : Instr, decode (encode i) = .command i) ∧
    ∀ (v : Word) (i : Instr), decode v = .command i → v = encode i

/-- R92: a command is legal exactly when RSV = 0 and OP is one of the six values, and each command's match is the whole
32-bit word of the rule's table. -/
def Obligations.LegalWordsAreThoseOfTheTable : Prop :=
  (∀ v : Word, (v.extractLsb' 4 28 = 0#28 ∧ 1 ≤ (v.extractLsb' 0 4).toNat ∧ (v.extractLsb' 0 4).toNat ≤ 6) ↔
    ∃ i, decode v = .command i) ∧
  ∀ (v : Word) (i : Instr), decode v = .command i ↔ (v, i) ∈
    [(0x00000001#32, Instr.expand), (0x00000002#32, .derive), (0x00000003#32, .encrypt), (0x00000004#32, .cmac),
     (0x00000005#32, .trunc), (0x00000006#32, .clear)]

/-! ### Steps -/

/-- R95, R99, R100, R299: what a step adds around the meaning of a command. A write of a command's word to CMD while
idle is the command's issue; a completion while busy is the command's completion, and so is a step with nothing
pending; an idle core takes no step of its own (the last two clauses are the model's, notes/assumptions/1.md and
2.md). -/
def Obligations.StepRunsTheDecodedCommand : Prop :=
  ∀ (s : State) (i : Instr) (rest : List Event),
    (∀ (off : Offset) (v : Word), s.eng = .idle → s.port.pending = .write off v :: rest → off &&& 0xFFFC#16 = 0#16 →
      decode v = .command i → step s = exec i (withPending s rest)) ∧
    (s.eng = .busy i → s.port.pending = .complete :: rest → step s = exec i (withPending s rest)) ∧
    (s.eng = .busy i → s.port.pending = [] → step s = exec i s) ∧
    (s.eng = .idle → s.port.pending = .complete :: rest → step s = .next (withPending s rest)) ∧
    (s.eng = .idle → s.port.pending = [] → step s = .next s)

/-- No step faults or is refused. The spec gives the absence of one: no transaction raises a bus error (R60), no error is
a trap (R289), no accepted command fails (R99). That an idle core with nothing pending answers a next state where R299
gives it no step is the model's (notes/assumptions/2.md), and so is the inference that nothing else stops the core
(notes/assumptions/10.md). -/
def Obligations.EveryStepAnswersANextState : Prop := ∀ s : State, ∃ t, step s = .next t

/-- R93, R262: an illegal word written to CMD while idle is reported as IllegalCommand and nothing but STATUS changes;
with the rule's four examples. -/
def Obligations.IllegalWordIsReportedAndNothingElse : Prop :=
  (∀ (s : State) (off : Offset) (v : Word) (rest : List Event),
    s.eng = .idle → s.port.pending = .write off v :: rest → off &&& 0xFFFC#16 = 0#16 →
    (v.extractLsb' 4 28 ≠ 0#28 ∨ (v.extractLsb' 0 4).toNat = 0 ∨ 7 ≤ (v.extractLsb' 0 4).toNat) →
    step s = .next { withPending s rest with done := true, werr := false, errcode := some .illegalCommand }) ∧
  codeOf (some .illegalCommand) = 0x3#4 ∧
  (∀ v ∈ [0x00000000#32, 0x00000007#32, 0x0000000F#32, 0x00000011#32], ∀ i, decode v ≠ .command i)

/-- R97, R282, R284, R285: the issue of each command while idle. It is accepted, or the first check that fails is
reported, and nothing changes but ENG and STATUS; TLEN is checked before MSG_LEN (R286). -/
def Obligations.IssueAcceptsOrReportsTheFirstError : Prop :=
  ∀ s : State, s.eng = .idle →
    let accepted := fun i : Instr => { s with eng := .busy i, done := false, werr := false, errcode := none }
    let reported := fun e : ErrCode => { s with done := true, werr := false, errcode := some e }
    exec .expand s = .next (accepted .expand) ∧
    exec .clear s = .next (accepted .clear) ∧
    exec .derive s = .next (if s.schedValid then accepted .derive else reported .scheduleNotValid) ∧
    exec .encrypt s = .next (if s.schedValid then accepted .encrypt else reported .scheduleNotValid) ∧
    exec .trunc s = .next (if 128 < s.tlen.toNat then reported .invalidTagLength else accepted .trunc) ∧
    exec .cmac s = .next (if 128 < s.tlen.toNat then reported .invalidTagLength
      else if s.cap.bytes < s.msgLen.toNat then reported .messageTooLong else accepted .cmac) ∧
    codeOf (some .invalidTagLength) = 0x2#4 ∧ codeOf (some .scheduleNotValid) = 0x4#4 ∧
    codeOf (some .messageTooLong) = 0x5#4

/-- R68 (the model's choice of what `exec` is for a command that is not the running one, notes/assumptions/3.md): it is
dropped, and only WERR changes. -/
def Obligations.OtherCommandWhileBusyIsDropped : Prop :=
  ∀ (s : State) (op i : Instr), s.eng = .busy op → op ≠ i → exec i s = .next { s with werr := true }

/-! ### The commands: issue while idle, completion while busy -/

/-- R166: EXPAND has no issue check and completes with the schedule of KEY; with the rule's example. -/
def Obligations.ExpandCompletesWithTheSchedule : Prop :=
  (∀ s : State,
    (s.eng = .idle →
      exec .expand s = .next { s with eng := .busy .expand, done := false, werr := false, errcode := none }) ∧
    (s.eng = .busy .expand →
      exec .expand s = .next { s with eng := .idle, done := true, sched := expand s.key, schedValid := true })) ∧
  (let S := expand 0x2b7e151628aed2a6abf7158809cf4f3c#128
   roundKey S 1 = 0xa0fafe1788542cb123a339392a6c7605#128 ∧ roundKey S 10 = 0xd014f9a8c9ee2589e13f0cc8b6630ca6#128)

/-- R185, R181: DERIVE checks SCHED_VALID and completes with the subkeys of SCHED; L is not kept. With the rule's
example. -/
def Obligations.DeriveCompletesWithTheSubkeys : Prop :=
  (∀ s : State,
    (s.eng = .idle → s.schedValid = false →
      exec .derive s = .next { s with done := true, werr := false, errcode := some .scheduleNotValid }) ∧
    (s.eng = .idle → s.schedValid = true →
      exec .derive s = .next { s with eng := .busy .derive, done := false, werr := false, errcode := none }) ∧
    (s.eng = .busy .derive →
      exec .derive s = .next { s with
        eng := .idle, done := true, subkeyValid := true
        k1 := dbl (encrypt s.sched 0#128), k2 := dbl (dbl (encrypt s.sched 0#128)) })) ∧
  (let S := expand 0x2b7e151628aed2a6abf7158809cf4f3c#128
   encrypt S 0#128 = 0x7df76b0c1ab899b33e42f047b91b546f#128 ∧
     derive S = (0xfbeed618357133667c85e08f7236a8de#128, 0xf7ddac306ae266ccf90bc11ee46d513b#128))

/-- R135: ENCRYPT checks SCHED_VALID and completes with DIN encrypted under SCHED; with the rule's example. -/
def Obligations.EncryptCompletesWithTheCipherBlock : Prop :=
  (∀ s : State,
    (s.eng = .idle → s.schedValid = false →
      exec .encrypt s = .next { s with done := true, werr := false, errcode := some .scheduleNotValid }) ∧
    (s.eng = .idle → s.schedValid = true →
      exec .encrypt s = .next { s with eng := .busy .encrypt, done := false, werr := false, errcode := none }) ∧
    (s.eng = .busy .encrypt →
      exec .encrypt s = .next { s with eng := .idle, done := true, dout := encrypt s.sched s.din })) ∧
  encrypt (expand 0x2b7e151628aed2a6abf7158809cf4f3c#128) 0x6bc1bee22e409f96e93d7e117393172a#128 =
    0x3ad77bb40d7a3660a89ecaf32466ef97#128

/-- R230, R226: CMAC checks TLEN, then MSG_LEN, and completes with the schedule, the subkeys and the tag of R230's
pseudocode: the last block, the chain and the truncation. With the rule's example and its empty message. -/
def Obligations.CmacCompletesWithTheTag : Prop :=
  (∀ s : State,
    (s.eng = .idle → 128 < s.tlen.toNat →
      exec .cmac s = .next { s with done := true, werr := false, errcode := some .invalidTagLength }) ∧
    (s.eng = .idle → s.tlen.toNat ≤ 128 → s.cap.bytes < s.msgLen.toNat →
      exec .cmac s = .next { s with done := true, werr := false, errcode := some .messageTooLong }) ∧
    (s.eng = .idle → s.tlen.toNat ≤ 128 → s.msgLen.toNat ≤ s.cap.bytes →
      exec .cmac s = .next { s with eng := .busy .cmac, done := false, werr := false, errcode := none }) ∧
    (s.eng = .busy .cmac →
      let S := expand s.key
      let K1 := dbl (encrypt S 0#128)
      let K2 := dbl K1
      let M := memRead s 0 s.msgLen.toNat
      let nl := formatLastBlock M K1 K2
      exec .cmac s = .next { s with
        eng := .idle, done := true, schedValid := true, subkeyValid := true
        sched := S, k1 := K1, k2 := K2, tag := truncateTag (chain S M nl.2 nl.1) s.tlen.toNat })) ∧
  (let K : Block := 0x2b7e151628aed2a6abf7158809cf4f3c#128
   let M := (List.range 16).map (blockByte 0x6bc1bee22e409f96e93d7e117393172a#128)
   cmac K M 128 = 0x070a16b46b4d4144f79bdd9dd04a287c#128 ∧ cmac K [] 128 = 0xbb1d6929e95937287fa37d129b756746#128)

/-- R235: TRUNC checks TLEN and completes with TAG truncated in place; with the rule's example. -/
def Obligations.TruncCompletesWithTheTruncatedTag : Prop :=
  (∀ s : State,
    (s.eng = .idle → 128 < s.tlen.toNat →
      exec .trunc s = .next { s with done := true, werr := false, errcode := some .invalidTagLength }) ∧
    (s.eng = .idle → s.tlen.toNat ≤ 128 →
      exec .trunc s = .next { s with eng := .busy .trunc, done := false, werr := false, errcode := none }) ∧
    (s.eng = .busy .trunc →
      exec .trunc s = .next { s with eng := .idle, done := true, tag := truncateTag s.tag s.tlen.toNat })) ∧
  truncateTag 0xbb1d6929e95937287fa37d129b756746#128 53 = 0xbb1d6929e95930000000000000000000#128

/-- R260, R261: CLEAR has no issue check and completes with KEY and all that comes from it zeroed; TLEN, MSG_LEN, DIN
and the message RAM stay. -/
def Obligations.ClearCompletesWithKeyMaterialZeroed : Prop :=
  ∀ s : State,
    (s.eng = .idle →
      exec .clear s = .next { s with eng := .busy .clear, done := false, werr := false, errcode := none }) ∧
    (s.eng = .busy .clear →
      ∃ t, exec .clear s = .next t ∧
        t = { s with
          eng := .idle, done := true, schedValid := false, subkeyValid := false
          key := 0#128, k1 := 0#128, k2 := 0#128, dout := 0#128, tag := 0#128, sched := t.sched } ∧
        ∀ k < 176, schedByte t.sched k = 0x00#8)

/-- R91: the frame of every command, at issue and at completion. What is not in a command's row of R91's table is
unchanged, and so is every message byte. -/
def Obligations.CommandsWriteOnlyTheirResults : Prop :=
  ∀ (i : Instr) (s t : State), exec i s = .next t →
    (∀ a, msgByte t a = msgByte s a) ∧
    t.tlen = s.tlen ∧ t.msgLen = s.msgLen ∧ t.din = s.din ∧ t.cap = s.cap ∧ t.port = s.port ∧
    (i ≠ .clear → t.key = s.key) ∧
    (i ≠ .expand → i ≠ .cmac → i ≠ .clear → t.sched = s.sched ∧ t.schedValid = s.schedValid) ∧
    (i ≠ .derive → i ≠ .cmac → i ≠ .clear → t.k1 = s.k1 ∧ t.k2 = s.k2 ∧ t.subkeyValid = s.subkeyValid) ∧
    (i ≠ .encrypt → i ≠ .clear → t.dout = s.dout) ∧
    (i ≠ .cmac → i ≠ .trunc → i ≠ .clear → t.tag = s.tag)

/-! ### Bus -/

/-- R24, R280: the STATUS word by its fields, and the code table. -/
def Obligations.StatusWordShowsItsFields : Prop :=
  (∀ s : State, busRead s 0x0004#16 = statusWord s ∧
    ((statusWord s).getLsbD 0 = true ↔ ∃ op, s.eng = .busy op) ∧
    (statusWord s).getLsbD 1 = s.done ∧ (statusWord s).getLsbD 2 = s.schedValid ∧
    (statusWord s).getLsbD 3 = s.subkeyValid ∧ (statusWord s).getLsbD 4 = s.werr ∧
    (statusWord s).extractLsb' 5 3 = 0#3 ∧ (statusWord s).extractLsb' 8 4 = codeOf s.errcode ∧
    (statusWord s).extractLsb' 12 20 = 0#20) ∧
  codeOf none = 0x0#4 ∧ codeOf (some .invalidKeyLength) = 0x1#4 ∧ codeOf (some .invalidTagLength) = 0x2#4 ∧
  codeOf (some .illegalCommand) = 0x3#4 ∧ codeOf (some .scheduleNotValid) = 0x4#4 ∧
  codeOf (some .messageTooLong) = 0x5#4

/-- R22, R31 to R34, R36 to R40, R64: what a read returns at every mapped readable offset. Word j of a block register
and message word j are given by their bytes (R41, R64). -/
def Obligations.ReadsFollowTheRegisterMap : Prop :=
  ∀ s : State,
    busRead s 0x0008#16 = s.tlen ∧ busRead s 0x000C#16 = s.msgLen ∧
    (busRead s 0x0010#16).toNat = s.cap.bytes ∧ busRead s 0x0014#16 = 0x434D4143#32 ∧
    (∀ j < 4, ∀ k < 4,
      wordByte (busRead s (BitVec.ofNat 16 (0x0030 + 4 * j))) k = blockByte s.din (4 * j + k) ∧
      wordByte (busRead s (BitVec.ofNat 16 (0x0040 + 4 * j))) k = blockByte s.dout (4 * j + k) ∧
      wordByte (busRead s (BitVec.ofNat 16 (0x0050 + 4 * j))) k = blockByte s.tag (4 * j + k) ∧
      wordByte (busRead s (BitVec.ofNat 16 (0x0060 + 4 * j))) k = blockByte s.k1 (4 * j + k) ∧
      wordByte (busRead s (BitVec.ofNat 16 (0x0070 + 4 * j))) k = blockByte s.k2 (4 * j + k)) ∧
    (∀ j, 4 * j < s.cap.bytes → ∀ k < 4,
      wordByte (busRead s (BitVec.ofNat 16 (0x8000 + 4 * j))) k = msgByte s (4 * j + k))

/-- R41: a block is its words in order, byte 4j of the block in bits [31:24] of word j; with the rule's example. -/
def Obligations.BlockWordsPackBigEndian : Prop :=
  (∀ b : Block, blockWord b 0 ++ blockWord b 1 ++ blockWord b 2 ++ blockWord b 3 = b ∧
    ∀ j < 4, (blockWord b j).extractLsb' 24 8 = blockByte b (4 * j) ∧
      (blockWord b j).extractLsb' 16 8 = blockByte b (4 * j + 1) ∧
      (blockWord b j).extractLsb' 8 8 = blockByte b (4 * j + 2) ∧
      (blockWord b j).extractLsb' 0 8 = blockByte b (4 * j + 3)) ∧
  (let K : Block := 0x2b7e151628aed2a6abf7158809cf4f3c#128
   blockWord K 0 = 0x2b7e1516#32 ∧ blockWord K 1 = 0x28aed2a6#32 ∧ blockWord K 2 = 0xabf71588#32 ∧
     blockWord K 3 = 0x09cf4f3c#32)

/-- R61: a transaction at offset off acts exactly as one at off & 0xFFFC, and is never a fault. -/
def Obligations.LowOffsetBitsAreIgnored : Prop :=
  ∀ (s : State) (off : Offset) (v : Word),
    takeEvent (.write off v) s = takeEvent (.write (off &&& 0xFFFC#16) v) s ∧
    takeEvent (.read off) s = takeEvent (.read (off &&& 0xFFFC#16)) s ∧
    (∃ t, takeEvent (.write off v) s = .next t) ∧ ∃ t, takeEvent (.read off) s = .next t

/-- R67: reads change no state, whatever their number, and each returns the value the current state holds, so two reads
of one offset with only reads between them return the same value. -/
def Obligations.ReadsChangeNoState : Prop :=
  ∀ (s : State) (offs : List Offset) (rest : List Event), s.port.pending = offs.map .read ++ rest →
    runSteps offs.length s =
      .next { s with port := ⟨rest, (offs.map (busRead s)).reverse ++ s.port.returned⟩ }

/-- R68: a write while busy, at any offset, changes nothing but WERR. -/
def Obligations.BusyWriteOnlySetsWerr : Prop :=
  ∀ (s : State) (op : Instr) (off : Offset) (v : Word) (rest : List Event),
    s.eng = .busy op → s.port.pending = .write off v :: rest →
    step s = .next { withPending s rest with werr := true }

/-- R68: from acceptance to completion, whatever the hosts write and read, nothing changes but WERR, so every input of the
running command keeps its value; each read adds one returned value (R67) and a write adds none. -/
def Obligations.BusyCoreKeepsItsStateUntilCompletion : Prop :=
  ∀ (s : State) (op : Instr) (es rest : List Event),
    s.eng = .busy op → (∀ e ∈ es, isHostEvent e = true) → s.port.pending = es ++ rest →
    ∃ vs, vs.length = es.countP (fun e => !isWrite e) ∧ runSteps es.length s =
      .next { s with werr := s.werr || es.any isWrite, port := ⟨rest, vs ++ s.port.returned⟩ }

/-- R63: reserved offsets and write-only registers read 0; writes to reserved offsets and read-only registers change no
state, but set WERR while busy. -/
def Obligations.ReservedAndReadOnlyOffsetsIgnoreWrites : Prop :=
  ∀ (s : State) (off : Offset) (v : Word) (rest : List Event),
    let a := (off &&& 0xFFFC#16).toNat
    let reserved := (0x0018 ≤ a ∧ a < 0x0020) ∨ (0x0080 ≤ a ∧ a < 0x8000) ∨ 0x8000 + s.cap.bytes ≤ a
    let readOnly := a = 0x0004 ∨ a = 0x0010 ∨ a = 0x0014 ∨ (0x0040 ≤ a ∧ a < 0x0080)
    let writeOnly := a = 0x0000 ∨ (0x0020 ≤ a ∧ a < 0x0030)
    (reserved ∨ writeOnly → busRead s off = 0x00000000#32) ∧
    (reserved ∨ readOnly → s.port.pending = .write off v :: rest →
      (s.eng = .idle → step s = .next (withPending s rest)) ∧
      (∀ op, s.eng = .busy op → step s = .next { withPending s rest with werr := true }))

/-- R35, R69: an idle write to KEYj stores the word and clears both valid bits, and changes nothing else. -/
def Obligations.KeyWriteStoresAndInvalidates : Prop :=
  ∀ (s : State) (j : Nat) (v : Word) (rest : List Event), j < 4 → s.eng = .idle →
    s.port.pending = .write (BitVec.ofNat 16 (0x0020 + 4 * j)) v :: rest →
    ∃ t, step s = .next t ∧
      t = { withPending s rest with key := t.key, schedValid := false, subkeyValid := false } ∧
      ∀ i < 4, blockWord t.key i = if i = j then v else blockWord s.key i

/-- R31, R32, R36, R69: an idle write to TLEN, MSG_LEN or DINj stores the value as written and changes nothing else, and
never sets WERR. -/
def Obligations.IdleWritesStoreTlenMsgLenAndDin : Prop :=
  ∀ (s : State) (v : Word) (rest : List Event), s.eng = .idle →
    (s.port.pending = .write 0x0008#16 v :: rest → step s = .next { withPending s rest with tlen := v }) ∧
    (s.port.pending = .write 0x000C#16 v :: rest → step s = .next { withPending s rest with msgLen := v }) ∧
    (∀ j < 4, s.port.pending = .write (BitVec.ofNat 16 (0x0030 + 4 * j)) v :: rest →
      ∃ t, step s = .next t ∧ t = { withPending s rest with din := t.din } ∧
        ∀ i < 4, blockWord t.din i = if i = j then v else blockWord s.din i)

/-- R64: an idle write to message word j stores its four bytes, the most significant at the lowest index, leaves every
other byte as it was, and a read of the word returns it. -/
def Obligations.MessageWriteStoresFourBytes : Prop :=
  ∀ (s : State) (j : Nat) (v : Word) (rest : List Event), 4 * j < s.cap.bytes → s.eng = .idle →
    s.port.pending = .write (BitVec.ofNat 16 (0x8000 + 4 * j)) v :: rest →
    ∃ t, step s = .next t ∧ t = { withPending s rest with msg := t.msg } ∧
      msgByte t (4 * j) = v.extractLsb' 24 8 ∧ msgByte t (4 * j + 1) = v.extractLsb' 16 8 ∧
      msgByte t (4 * j + 2) = v.extractLsb' 8 8 ∧ msgByte t (4 * j + 3) = v.extractLsb' 0 8 ∧
      (∀ a, a < 4 * j ∨ 4 * j + 3 < a → msgByte t a = msgByte s a) ∧
      busRead t (BitVec.ofNat 16 (0x8000 + 4 * j)) = v

/-- R37 to R40, R42, R70: no host transaction, an issue among them, changes DOUT, TAG, K1, K2 or SCHED: only completions
and resets do. -/
def Obligations.HostTransactionsKeepTheResults : Prop :=
  ∀ (s t : State) (e : Event) (rest : List Event), isHostEvent e = true → s.port.pending = e :: rest →
    step s = .next t →
    t.dout = s.dout ∧ t.tag = s.tag ∧ t.k1 = s.k1 ∧ t.k2 = s.k2 ∧ t.sched = s.sched

/-! ### Reset -/

/-- R48, R320, R321: reset puts every element at its tabled value, whatever the core was doing, and leaves the message
RAM unchanged; at power-on the RAM holds MSG_INIT. -/
def Obligations.ResetLeavesTheTabledState : Prop :=
  let tabled := fun t : State =>
    t.eng = .idle ∧ statusWord t = 0x00000000#32 ∧ t.tlen = 0x00000080#32 ∧ t.msgLen = 0x00000000#32 ∧
      t.key = 0#128 ∧ t.din = 0#128 ∧ t.dout = 0#128 ∧ t.tag = 0#128 ∧ t.k1 = 0#128 ∧ t.k2 = 0#128 ∧
      ∀ k < 176, schedByte t.sched k = 0x00#8
  (tabled State.reset ∧ ∀ a, msgByte State.reset a = Config.msgInit a) ∧
  ∀ (s : State) (rest : List Event), s.port.pending = .reset :: rest →
    ∃ t, step s = .next t ∧ tabled t ∧ (∀ a, msgByte t a = msgByte s a) ∧ t.cap = s.cap ∧
      t.port = ⟨rest, s.port.returned⟩

/-! ### The functions the commands compute -/

/-- R163: the expansion, word by word and byte by byte; its first 16 bytes are the key (R164). -/
def Obligations.ExpandFollowsTheWordRecurrence : Prop :=
  ∀ K : Block, roundKey (expand K) 0 = K ∧
    (∀ i < 4, schedWord (expand K) i = blockWord K i) ∧
    ∀ i, 4 ≤ i → i < 44 → ∀ k < 4,
      wordByte (schedWord (expand K) i) k =
        wordByte (schedWord (expand K) (i - 4)) k ^^^
          (if i % 4 = 0 then
            sbox (wordByte (schedWord (expand K) (i - 1)) ((k + 1) % 4)) ^^^
              (if k = 0 then rcon (i / 4) else 0x00#8)
          else wordByte (schedWord (expand K) (i - 1)) k)

/-- R161: the round constants, and that each is the one before it times x in GF(2^8). -/
def Obligations.RoundConstantsAreThePowersOfX : Prop :=
  (List.range 11).map rcon =
    [0x00#8, 0x01#8, 0x02#8, 0x04#8, 0x08#8, 0x10#8, 0x20#8, 0x40#8, 0x80#8, 0x1B#8, 0x36#8] ∧
  ∀ r, 1 ≤ r → r ≤ 9 → rcon (r + 1) = xtime (rcon r)

/-- R122: the table of R121 is the affine map of the field inverse. -/
def Obligations.SboxIsTheAffineMapOfTheInverse : Prop :=
  ∀ b : Byte, ∃ x : Byte, (b = 0x00#8 ∧ x = 0x00#8 ∨ gmul b x = 0x01#8) ∧
    ∀ i < 8, (sbox b).getLsbD i =
      (x.getLsbD i ^^ x.getLsbD ((i + 4) % 8) ^^ x.getLsbD ((i + 5) % 8) ^^ x.getLsbD ((i + 6) % 8) ^^
        x.getLsbD ((i + 7) % 8) ^^ (0x63#8).getLsbD i)

/-- R127: ShiftRows on the flat array. -/
def Obligations.ShiftRowsMovesTheseBytes : Prop :=
  (∀ (b : Block) (r c : Nat), r < 4 → c < 4 →
    blockByte (shiftRows b) (r + 4 * c) = blockByte b (r + 4 * ((c + r) % 4))) ∧
  ∀ b : Block, (List.range 16).map (blockByte (shiftRows b)) =
    [0, 5, 10, 15, 4, 9, 14, 3, 8, 13, 2, 7, 12, 1, 6, 11].map (blockByte b)

/-- R126, R128: SubBytes byte by byte, MixColumns column by column; with R128's example. -/
def Obligations.SubBytesAndMixColumnsActLocally : Prop :=
  (∀ (b : Block), ∀ k < 16, blockByte (subBytes b) k = sbox (blockByte b k)) ∧
  (∀ (b : Block), ∀ c < 4,
    let a := fun r => blockByte b (r + 4 * c)
    blockByte (mixColumns b) (4 * c) = gmul (a 0) 2 ^^^ gmul (a 1) 3 ^^^ a 2 ^^^ a 3 ∧
    blockByte (mixColumns b) (1 + 4 * c) = a 0 ^^^ gmul (a 1) 2 ^^^ gmul (a 2) 3 ^^^ a 3 ∧
    blockByte (mixColumns b) (2 + 4 * c) = a 0 ^^^ a 1 ^^^ gmul (a 2) 2 ^^^ gmul (a 3) 3 ∧
    blockByte (mixColumns b) (3 + 4 * c) = gmul (a 0) 3 ^^^ a 1 ^^^ a 2 ^^^ gmul (a 3) 2) ∧
  (List.range 4).map (mixColumn 0xdb#8 0x13#8 0x53#8 0x45#8) = [0x8e#8, 0x4d#8, 0xa1#8, 0xbc#8]

/-- R124: the small products, for every byte, and the rule's example. -/
def Obligations.GmulBySmallFactors : Prop :=
  (∀ a : Byte, gmul a 1 = a ∧ gmul a 2 = xtime a ∧ gmul a 3 = xtime a ^^^ a) ∧ gmul 0x57#8 0x13#8 = 0xFE#8

/-- R129: AddRoundKey XORs byte k with byte 16r + k of the schedule. -/
def Obligations.AddRoundKeyUsesSixteenScheduleBytes : Prop :=
  ∀ (b : Block) (S : Schedule) (r : Nat), r ≤ 10 → ∀ k < 16,
    blockByte (addRoundKey b S r) k = blockByte b k ^^^ schedByte S (16 * r + k)

/-- R130: ten rounds, the last without MixColumns, each under its own round key. -/
def Obligations.EncryptIsTenRounds : Prop :=
  ∀ (S : Schedule) (b : Block), ∃ st : Nat → Block,
    st 0 = b ^^^ roundKey S 0 ∧
    (∀ r, 1 ≤ r → r ≤ 9 → st r = mixColumns (shiftRows (subBytes (st (r - 1)))) ^^^ roundKey S r) ∧
    encrypt S b = shiftRows (subBytes (st 9)) ^^^ roundKey S 10

/-- R182: the byte-wise shift with carry is the doubling of R180. -/
def Obligations.DoublingShiftsByteByByte : Prop :=
  ∀ b : Block,
    (∀ k < 15, blockByte (dbl b) k = (blockByte b k <<< 1) ||| (blockByte b (k + 1) >>> 7)) ∧
    blockByte (dbl b) 15 =
      if (blockByte b 0).getLsbD 7 then (blockByte b 15 <<< 1) ^^^ 0x87#8 else blockByte b 15 <<< 1

/-- R204, R205: the block count and the last block, byte by byte, for every message. -/
def Obligations.LastBlockIsFormattedByLength : Prop :=
  ∀ (M : List Byte) (K1 K2 : Block),
    let n := max 1 ((M.length + 15) / 16)
    let r := M.length - 16 * (n - 1)
    (formatLastBlock M K1 K2).1 = n ∧
    (0 < M.length ∧ M.length % 16 = 0 → ∀ k < 16,
      blockByte (formatLastBlock M K1 K2).2 k = M.getD (16 * (n - 1) + k) 0x00#8 ^^^ blockByte K1 k) ∧
    (¬ (0 < M.length ∧ M.length % 16 = 0) → r ≤ 15 ∧ ∀ k < 16,
      blockByte (formatLastBlock M K1 K2).2 k =
        (if k < r then M.getD (16 * (n - 1) + k) 0x00#8 else if k = r then 0x80#8 else 0x00#8) ^^^ blockByte K2 k)

/-- R220, R203: the chain absorbs one block at a time, the message's full blocks in order and then the last block. -/
def Obligations.ChainAbsorbsBlocksInOrder : Prop :=
  ∀ (S : Schedule) (M : List Byte) (last : Block),
    chain S M last 1 = encrypt S last ∧
    (∀ n, 1 ≤ n → chain S M last (n + 1) = encrypt S (chain S M (msgBlock M (n - 1)) n ^^^ last)) ∧
    ∀ i, 16 * i + 16 ≤ M.length → ∀ k < 16, blockByte (msgBlock M i) k = M.getD (16 * i + k) 0x00#8

/-- R223: truncation keeps the tlen most significant bits: the mask form. -/
def Obligations.TruncateKeepsTheTopBits : Prop :=
  ∀ (T : Block) (tlen : Nat), tlen ≤ 128 →
    truncateTag T tlen = T &&& BitVec.ofNat 128 (2 ^ 128 - 2 ^ (128 - tlen))

/-- R225: truncation is monotone, so the 128-bit tag truncated to t bits is the tag of length t. -/
def Obligations.TruncationIsMonotone : Prop :=
  (∀ (T : Block) (a b : Nat), a ≤ 128 → b ≤ 128 →
    truncateTag (truncateTag T a) b = truncateTag T (min a b)) ∧
  ∀ (K : Block) (M : List Byte) (t : Nat), t ≤ 128 → truncateTag (cmac K M 128) t = cmac K M t

/-! ### Whole-machine rules -/

/-- R99, R100, R68: the result of a command is a function of the state at its issue. Whatever reads and writes fall
between the accepting write and the completion, the state after the completion is that of the command completed at
once, but for WERR and the values the host has read. -/
def Obligations.CommandResultIsFixedAtIssue : Prop :=
  ∀ (i : Instr) (s : State) (es rest : List Event),
    s.eng = .idle → issueCheck i s = none → (∀ e ∈ es, isHostEvent e = true) →
    s.port.pending = .write 0x0000#16 (encode i) :: (es ++ .complete :: rest) →
    ∃ u vs, exec i { s with eng := .busy i, done := false, werr := false, errcode := none } = .next u ∧
      vs.length = es.countP (fun e => !isWrite e) ∧
      runSteps (es.length + 2) s =
        .next { u with werr := es.any isWrite, port := ⟨rest, vs ++ s.port.returned⟩ }

/-- R74, R226, R230: a host that writes CMAC to CMD, does anything until the completion, and then reads what it likes in
any order, polls of STATUS among it: every such read returns what the final state shows, where STATUS shows BUSY 0, DONE 1
and no error, TAG is the tag of the message, key and length at the issue, and K1 and K2 are its subkeys. -/
def Obligations.CmacTagReachesTheHost : Prop :=
  ∀ (s : State) (es : List Event) (offs : List Offset) (rest : List Event),
    s.eng = .idle → s.tlen.toNat ≤ 128 → s.msgLen.toNat ≤ s.cap.bytes → (∀ e ∈ es, isHostEvent e = true) →
    s.port.pending = .write 0x0000#16 0x00000004#32 :: (es ++ .complete :: (offs.map .read ++ rest)) →
    let T := cmac s.key (memRead s 0 s.msgLen.toNat) s.tlen.toNat
    let K := derive (expand s.key)
    ∃ t vs, runSteps (es.length + offs.length + 2) s = .next t ∧
      vs.length = es.countP (fun e => !isWrite e) ∧
      t.port = ⟨rest, (offs.map (busRead t)).reverse ++ (vs ++ s.port.returned)⟩ ∧
      (busRead t 0x0004#16).getLsbD 0 = false ∧ (busRead t 0x0004#16).getLsbD 1 = true ∧
      (busRead t 0x0004#16).extractLsb' 8 4 = 0x0#4 ∧
      ∀ j < 4, busRead t (BitVec.ofNat 16 (0x0050 + 4 * j)) = blockWord T j ∧
        busRead t (BitVec.ofNat 16 (0x0060 + 4 * j)) = blockWord K.1 j ∧
        busRead t (BitVec.ofNat 16 (0x0070 + 4 * j)) = blockWord K.2 j

/-- R235, R225: a CMAC with TLEN = 128 followed by TRUNC with TLEN = n leaves the TAG that a CMAC with TLEN = n
leaves. -/
def Obligations.TruncAfterFullCmacEqualsShortCmac : Prop :=
  ∀ (s : State) (n : Word), s.eng = .busy .cmac → s.tlen = 128#32 → n.toNat ≤ 128 →
    ∃ t u w, exec .cmac s = .next t ∧ exec .trunc { t with eng := .busy .trunc, tlen := n } = .next u ∧
      exec .cmac { s with tlen := n } = .next w ∧ u.tag = w.tag

/-- R64, R66, R230: message bytes at and past MSG_LEN never change what CMAC does. -/
def Obligations.CmacIgnoresBytesPastTheMessage : Prop :=
  ∀ (s : State) (m : Memory), s.eng = .busy .cmac →
    (∀ a < s.msgLen.toNat, msgByte { s with msg := m } a = msgByte s a) →
    ∃ t, exec .cmac s = .next t ∧ exec .cmac { s with msg := m } = .next { t with msg := m }

/-- R22, R35, R42: without a command, a host learns nothing of KEY or SCHED: two idle cores that differ in them alone
return the same values to the same transactions. -/
def Obligations.KeyAndScheduleAreNotReadable : Prop :=
  ∀ (s : State) (k : Block) (S : Schedule) (es rest : List Event),
    s.eng = .idle → (∀ e ∈ es, isHostEventOffCmd e = true) → s.port.pending = es ++ rest →
    ∃ t t', runSteps es.length s = .next t ∧
      runSteps es.length { s with key := k, sched := S } = .next t' ∧
      t.port = t'.port ∧ t' = { t with key := t'.key, sched := S }

/-- R27, R28, R77: three things invalidate the cached schedule and subkeys: an idle write to a KEY word, the completion
of CLEAR, and reset. -/
def Obligations.OnlyThreeEventsInvalidateTheCache : Prop :=
  ∀ s t : State, step s = .next t →
    (s.schedValid = true ∧ t.schedValid = false) ∨ (s.subkeyValid = true ∧ t.subkeyValid = false) →
    (∃ rest, s.port.pending = .reset :: rest) ∨
    (s.eng = .idle ∧ ∃ off v rest, s.port.pending = .write off v :: rest ∧
      0x0020 ≤ (off &&& 0xFFFC#16).toNat ∧ (off &&& 0xFFFC#16).toNat < 0x0030) ∨
    (s.eng = .busy .clear ∧ (s.port.pending = [] ∨ ∃ rest, s.port.pending = .complete :: rest))

/-- R333, R284: after a write to a KEY word and any reads and writes that issue no command, ENCRYPT and DERIVE are refused
with ScheduleNotValid, and DOUT, K1 and K2 keep their values. And whatever came before, while ENCRYPT or DERIVE runs, in
any state of the invariant (`StepKeepsTheInvariant`), the schedule it runs on is the one of the current KEY. -/
def Obligations.StaleScheduleIsNeverUsed : Prop :=
  (∀ (s : State) (i : Instr) (j : Nat) (v : Word) (es rest : List Event), i = .encrypt ∨ i = .derive → j < 4 →
    s.eng = .idle → (∀ e ∈ es, isHostEventOffCmd e = true) →
    s.port.pending = .write (BitVec.ofNat 16 (0x0020 + 4 * j)) v ::
      (es ++ .write 0x0000#16 (encode i) :: rest) →
    ∃ t, runSteps (es.length + 2) s = .next t ∧ t.eng = .idle ∧ t.done = true ∧
      t.errcode = some .scheduleNotValid ∧ t.dout = s.dout ∧ t.k1 = s.k1 ∧ t.k2 = s.k2) ∧
  ∀ (s : State) (i : Instr), i = .encrypt ∨ i = .derive → MachineInv s → s.eng = .busy i →
    s.sched = expand s.key

/-- R100 (over the model's finite list of pending events, notes/assumptions/1.md): a busy core is idle again after at
most one step more than there are events pending. -/
def Obligations.BusyCoreBecomesIdle : Prop :=
  ∀ (s : State) (op : Instr), s.eng = .busy op →
    ∃ k t, k ≤ s.port.pending.length + 1 ∧ runSteps k s = .next t ∧ t.eng = .idle

/-- R29: a write while busy sets WERR whatever its offset, and WERR, once set, is cleared by nothing but an issue and a
reset. -/
def Obligations.WerrIsStickyUntilIssueOrReset : Prop :=
  (∀ (s : State) (op : Instr) (off : Offset) (v : Word) (rest : List Event),
    s.eng = .busy op → s.port.pending = .write off v :: rest → ∃ t, step s = .next t ∧ t.werr = true) ∧
  ∀ s t : State, step s = .next t → s.werr = true → t.werr = false →
    (∃ rest, s.port.pending = .reset :: rest) ∨
    (s.eng = .idle ∧ ∃ off v rest, s.port.pending = .write off v :: rest ∧ off &&& 0xFFFC#16 = 0#16)

/-- R291, R287: no error arises while the core is busy: no step of a busy core but a reset changes ERRCODE, and a reset
clears it. -/
def Obligations.NoErrorArisesWhileBusy : Prop :=
  ∀ (s t : State) (op : Instr), s.eng = .busy op → step s = .next t →
    t.errcode = s.errcode ∨ (t.errcode = none ∧ ∃ rest, s.port.pending = .reset :: rest)

/-- R35, R37 to R40: who writes KEY, DOUT, TAG, K1 and K2. A step that changes one of them is a reset, the completion of
CLEAR, or one of the register's own: an idle write to a KEY word, ENCRYPT for DOUT, CMAC or TRUNC for TAG, DERIVE or
CMAC for K1 and K2. -/
def Obligations.EachResultRegisterHasTheseWriters : Prop :=
  ∀ s t : State, step s = .next t → (∀ rest, s.port.pending ≠ .reset :: rest) → s.eng ≠ .busy .clear →
    (t.key ≠ s.key → s.eng = .idle ∧ ∃ off v rest, s.port.pending = .write off v :: rest ∧
      0x0020 ≤ (off &&& 0xFFFC#16).toNat ∧ (off &&& 0xFFFC#16).toNat < 0x0030) ∧
    (t.dout ≠ s.dout → s.eng = .busy .encrypt) ∧
    (t.tag ≠ s.tag → s.eng = .busy .cmac ∨ s.eng = .busy .trunc) ∧
    (t.k1 ≠ s.k1 ∨ t.k2 ≠ s.k2 → s.eng = .busy .derive ∨ s.eng = .busy .cmac)

/-- R38: after CMAC or TRUNC, only the most significant TLEN bits of TAG can be nonzero. The premise TLEN ≤ 128 holds
while either runs, by the invariant (R282). -/
def Obligations.TagHasNoBitsPastTlen : Prop :=
  ∀ (s : State) (i : Instr), i = .cmac ∨ i = .trunc → s.eng = .busy i → s.tlen.toNat ≤ 128 →
    ∃ t, exec i s = .next t ∧ ∀ b < 128 - s.tlen.toNat, t.tag.getLsbD b = false

/-- R281: no step puts InvalidKeyLength in ERRCODE, and reset does not leave it there. -/
def Obligations.InvalidKeyLengthIsNeverRaised : Prop :=
  ErrcodeInv State.reset ∧ ∀ s t : State, ErrcodeInv s → step s = .next t → ErrcodeInv t

/-- R64: every step keeps the message RAM in its canonical form and inside MSG[0 .. MSG_CAP-1], and no step changes
MSG_CAP (the canonical form is the model's, notes/assumptions/5.md). -/
def Obligations.StepKeepsTheMessageRamCanonical : Prop :=
  ∀ s t : State, MemoryInv s → step s = .next t → MemoryInv t ∧ t.cap = s.cap

/-- The invariant of the machine holds right after reset: the cache invariants of R46 and the conditions on ENG, STATUS and
ERRCODE (R68, R99, R281) at the values of R48; the clause that the message RAM is canonical is the model's form, not the
spec's (notes/assumptions/5.md). -/
def Obligations.ResetMeetsTheInvariant : Prop := MachineInv State.reset

/-- R46: SCHED_VALID and SUBKEY_VALID vouch for SCHED, K1 and K2 in every state a step reaches from one in which they
do; with the conditions of a running command that this rests on (R68, R99), the error code of R281 and the canonical form of
the message RAM, which is the model's and not the spec's (notes/assumptions/5.md). -/
def Obligations.StepKeepsTheInvariant : Prop := ∀ s t : State, MachineInv s → step s = .next t → MachineInv t

/-- R46: in every state that any sequence of events leads to from reset, SCHED_VALID = 1 implies SCHED = Expand(KEY),
and SUBKEY_VALID = 1 implies SCHED_VALID = 1 and (K1, K2) = Derive(SCHED). -/
def Obligations.ValidBitsVouchInEveryReachableState : Prop :=
  ∀ (es : List Event) (k : Nat) (t : State), runSteps k { State.reset with port := ⟨es, []⟩ } = .next t →
    (t.schedValid = true → t.sched = expand t.key) ∧
    (t.subkeyValid = true → t.schedValid = true ∧
      t.k1 = dbl (encrypt t.sched 0#128) ∧ t.k2 = dbl (dbl (encrypt t.sched 0#128)))
end

