-- ==== Sys2Proof/Laws/State.lean ====
section
/-! SUPPORT. One lemma per field per update of the state, each true by rfl, for the updates the machine shares. -/

namespace Sys2Proof.Machine

@[simp] theorem clearReport_eng (s : State) : (clearReport s).eng = s.eng := rfl
@[simp] theorem clearReport_done (s : State) : (clearReport s).done = false := rfl
@[simp] theorem clearReport_schedValid (s : State) : (clearReport s).schedValid = s.schedValid := rfl
@[simp] theorem clearReport_subkeyValid (s : State) : (clearReport s).subkeyValid = s.subkeyValid := rfl
@[simp] theorem clearReport_werr (s : State) : (clearReport s).werr = false := rfl
@[simp] theorem clearReport_errcode (s : State) : (clearReport s).errcode = none := rfl
@[simp] theorem clearReport_tlen (s : State) : (clearReport s).tlen = s.tlen := rfl
@[simp] theorem clearReport_msgLen (s : State) : (clearReport s).msgLen = s.msgLen := rfl
@[simp] theorem clearReport_key (s : State) : (clearReport s).key = s.key := rfl
@[simp] theorem clearReport_din (s : State) : (clearReport s).din = s.din := rfl
@[simp] theorem clearReport_dout (s : State) : (clearReport s).dout = s.dout := rfl
@[simp] theorem clearReport_tag (s : State) : (clearReport s).tag = s.tag := rfl
@[simp] theorem clearReport_k1 (s : State) : (clearReport s).k1 = s.k1 := rfl
@[simp] theorem clearReport_k2 (s : State) : (clearReport s).k2 = s.k2 := rfl
@[simp] theorem clearReport_sched (s : State) : (clearReport s).sched = s.sched := rfl
@[simp] theorem clearReport_msg (s : State) : (clearReport s).msg = s.msg := rfl
@[simp] theorem clearReport_cap (s : State) : (clearReport s).cap = s.cap := rfl
@[simp] theorem clearReport_port (s : State) : (clearReport s).port = s.port := rfl

@[simp] theorem raiseError_eng (e : ErrCode) (s : State) : (raiseError e s).eng = s.eng := rfl
@[simp] theorem raiseError_done (e : ErrCode) (s : State) : (raiseError e s).done = true := rfl
@[simp] theorem raiseError_schedValid (e : ErrCode) (s : State) : (raiseError e s).schedValid = s.schedValid := rfl
@[simp] theorem raiseError_subkeyValid (e : ErrCode) (s : State) : (raiseError e s).subkeyValid = s.subkeyValid := rfl
@[simp] theorem raiseError_werr (e : ErrCode) (s : State) : (raiseError e s).werr = s.werr := rfl
@[simp] theorem raiseError_errcode (e : ErrCode) (s : State) : (raiseError e s).errcode = some e := rfl
@[simp] theorem raiseError_tlen (e : ErrCode) (s : State) : (raiseError e s).tlen = s.tlen := rfl
@[simp] theorem raiseError_msgLen (e : ErrCode) (s : State) : (raiseError e s).msgLen = s.msgLen := rfl
@[simp] theorem raiseError_key (e : ErrCode) (s : State) : (raiseError e s).key = s.key := rfl
@[simp] theorem raiseError_din (e : ErrCode) (s : State) : (raiseError e s).din = s.din := rfl
@[simp] theorem raiseError_dout (e : ErrCode) (s : State) : (raiseError e s).dout = s.dout := rfl
@[simp] theorem raiseError_tag (e : ErrCode) (s : State) : (raiseError e s).tag = s.tag := rfl
@[simp] theorem raiseError_k1 (e : ErrCode) (s : State) : (raiseError e s).k1 = s.k1 := rfl
@[simp] theorem raiseError_k2 (e : ErrCode) (s : State) : (raiseError e s).k2 = s.k2 := rfl
@[simp] theorem raiseError_sched (e : ErrCode) (s : State) : (raiseError e s).sched = s.sched := rfl
@[simp] theorem raiseError_msg (e : ErrCode) (s : State) : (raiseError e s).msg = s.msg := rfl
@[simp] theorem raiseError_cap (e : ErrCode) (s : State) : (raiseError e s).cap = s.cap := rfl
@[simp] theorem raiseError_port (e : ErrCode) (s : State) : (raiseError e s).port = s.port := rfl

@[simp] theorem accept_eng (i : Instr) (s : State) : (accept i s).eng = .busy i := rfl
@[simp] theorem accept_done (i : Instr) (s : State) : (accept i s).done = s.done := rfl
@[simp] theorem accept_schedValid (i : Instr) (s : State) : (accept i s).schedValid = s.schedValid := rfl
@[simp] theorem accept_subkeyValid (i : Instr) (s : State) : (accept i s).subkeyValid = s.subkeyValid := rfl
@[simp] theorem accept_werr (i : Instr) (s : State) : (accept i s).werr = s.werr := rfl
@[simp] theorem accept_errcode (i : Instr) (s : State) : (accept i s).errcode = s.errcode := rfl
@[simp] theorem accept_tlen (i : Instr) (s : State) : (accept i s).tlen = s.tlen := rfl
@[simp] theorem accept_msgLen (i : Instr) (s : State) : (accept i s).msgLen = s.msgLen := rfl
@[simp] theorem accept_key (i : Instr) (s : State) : (accept i s).key = s.key := rfl
@[simp] theorem accept_din (i : Instr) (s : State) : (accept i s).din = s.din := rfl
@[simp] theorem accept_dout (i : Instr) (s : State) : (accept i s).dout = s.dout := rfl
@[simp] theorem accept_tag (i : Instr) (s : State) : (accept i s).tag = s.tag := rfl
@[simp] theorem accept_k1 (i : Instr) (s : State) : (accept i s).k1 = s.k1 := rfl
@[simp] theorem accept_k2 (i : Instr) (s : State) : (accept i s).k2 = s.k2 := rfl
@[simp] theorem accept_sched (i : Instr) (s : State) : (accept i s).sched = s.sched := rfl
@[simp] theorem accept_msg (i : Instr) (s : State) : (accept i s).msg = s.msg := rfl
@[simp] theorem accept_cap (i : Instr) (s : State) : (accept i s).cap = s.cap := rfl
@[simp] theorem accept_port (i : Instr) (s : State) : (accept i s).port = s.port := rfl

@[simp] theorem finish_eng (s : State) : (finish s).eng = .idle := rfl
@[simp] theorem finish_done (s : State) : (finish s).done = true := rfl
@[simp] theorem finish_schedValid (s : State) : (finish s).schedValid = s.schedValid := rfl
@[simp] theorem finish_subkeyValid (s : State) : (finish s).subkeyValid = s.subkeyValid := rfl
@[simp] theorem finish_werr (s : State) : (finish s).werr = s.werr := rfl
@[simp] theorem finish_errcode (s : State) : (finish s).errcode = s.errcode := rfl
@[simp] theorem finish_tlen (s : State) : (finish s).tlen = s.tlen := rfl
@[simp] theorem finish_msgLen (s : State) : (finish s).msgLen = s.msgLen := rfl
@[simp] theorem finish_key (s : State) : (finish s).key = s.key := rfl
@[simp] theorem finish_din (s : State) : (finish s).din = s.din := rfl
@[simp] theorem finish_dout (s : State) : (finish s).dout = s.dout := rfl
@[simp] theorem finish_tag (s : State) : (finish s).tag = s.tag := rfl
@[simp] theorem finish_k1 (s : State) : (finish s).k1 = s.k1 := rfl
@[simp] theorem finish_k2 (s : State) : (finish s).k2 = s.k2 := rfl
@[simp] theorem finish_sched (s : State) : (finish s).sched = s.sched := rfl
@[simp] theorem finish_msg (s : State) : (finish s).msg = s.msg := rfl
@[simp] theorem finish_cap (s : State) : (finish s).cap = s.cap := rfl
@[simp] theorem finish_port (s : State) : (finish s).port = s.port := rfl

@[simp] theorem dropWrite_eng (s : State) : (dropWrite s).eng = s.eng := rfl
@[simp] theorem dropWrite_done (s : State) : (dropWrite s).done = s.done := rfl
@[simp] theorem dropWrite_schedValid (s : State) : (dropWrite s).schedValid = s.schedValid := rfl
@[simp] theorem dropWrite_subkeyValid (s : State) : (dropWrite s).subkeyValid = s.subkeyValid := rfl
@[simp] theorem dropWrite_werr (s : State) : (dropWrite s).werr = true := rfl
@[simp] theorem dropWrite_errcode (s : State) : (dropWrite s).errcode = s.errcode := rfl
@[simp] theorem dropWrite_tlen (s : State) : (dropWrite s).tlen = s.tlen := rfl
@[simp] theorem dropWrite_msgLen (s : State) : (dropWrite s).msgLen = s.msgLen := rfl
@[simp] theorem dropWrite_key (s : State) : (dropWrite s).key = s.key := rfl
@[simp] theorem dropWrite_din (s : State) : (dropWrite s).din = s.din := rfl
@[simp] theorem dropWrite_dout (s : State) : (dropWrite s).dout = s.dout := rfl
@[simp] theorem dropWrite_tag (s : State) : (dropWrite s).tag = s.tag := rfl
@[simp] theorem dropWrite_k1 (s : State) : (dropWrite s).k1 = s.k1 := rfl
@[simp] theorem dropWrite_k2 (s : State) : (dropWrite s).k2 = s.k2 := rfl
@[simp] theorem dropWrite_sched (s : State) : (dropWrite s).sched = s.sched := rfl
@[simp] theorem dropWrite_msg (s : State) : (dropWrite s).msg = s.msg := rfl
@[simp] theorem dropWrite_cap (s : State) : (dropWrite s).cap = s.cap := rfl
@[simp] theorem dropWrite_port (s : State) : (dropWrite s).port = s.port := rfl

@[simp] theorem withPending_eng (s : State) (es : List Event) : (withPending s es).eng = s.eng := rfl
@[simp] theorem withPending_done (s : State) (es : List Event) : (withPending s es).done = s.done := rfl
@[simp] theorem withPending_schedValid (s : State) (es : List Event) : (withPending s es).schedValid = s.schedValid := rfl
@[simp] theorem withPending_subkeyValid (s : State) (es : List Event) : (withPending s es).subkeyValid = s.subkeyValid := rfl
@[simp] theorem withPending_werr (s : State) (es : List Event) : (withPending s es).werr = s.werr := rfl
@[simp] theorem withPending_errcode (s : State) (es : List Event) : (withPending s es).errcode = s.errcode := rfl
@[simp] theorem withPending_tlen (s : State) (es : List Event) : (withPending s es).tlen = s.tlen := rfl
@[simp] theorem withPending_msgLen (s : State) (es : List Event) : (withPending s es).msgLen = s.msgLen := rfl
@[simp] theorem withPending_key (s : State) (es : List Event) : (withPending s es).key = s.key := rfl
@[simp] theorem withPending_din (s : State) (es : List Event) : (withPending s es).din = s.din := rfl
@[simp] theorem withPending_dout (s : State) (es : List Event) : (withPending s es).dout = s.dout := rfl
@[simp] theorem withPending_tag (s : State) (es : List Event) : (withPending s es).tag = s.tag := rfl
@[simp] theorem withPending_k1 (s : State) (es : List Event) : (withPending s es).k1 = s.k1 := rfl
@[simp] theorem withPending_k2 (s : State) (es : List Event) : (withPending s es).k2 = s.k2 := rfl
@[simp] theorem withPending_sched (s : State) (es : List Event) : (withPending s es).sched = s.sched := rfl
@[simp] theorem withPending_msg (s : State) (es : List Event) : (withPending s es).msg = s.msg := rfl
@[simp] theorem withPending_cap (s : State) (es : List Event) : (withPending s es).cap = s.cap := rfl
@[simp] theorem withPending_port (s : State) (es : List Event) : (withPending s es).port = ⟨es, s.port.returned⟩ := rfl

@[simp] theorem applyReset_eng (s : State) : (applyReset s).eng = .idle := rfl
@[simp] theorem applyReset_done (s : State) : (applyReset s).done = false := rfl
@[simp] theorem applyReset_schedValid (s : State) : (applyReset s).schedValid = false := rfl
@[simp] theorem applyReset_subkeyValid (s : State) : (applyReset s).subkeyValid = false := rfl
@[simp] theorem applyReset_werr (s : State) : (applyReset s).werr = false := rfl
@[simp] theorem applyReset_errcode (s : State) : (applyReset s).errcode = none := rfl
@[simp] theorem applyReset_tlen (s : State) : (applyReset s).tlen = 0x80#32 := rfl
@[simp] theorem applyReset_msgLen (s : State) : (applyReset s).msgLen = 0#32 := rfl
@[simp] theorem applyReset_key (s : State) : (applyReset s).key = 0#128 := rfl
@[simp] theorem applyReset_din (s : State) : (applyReset s).din = 0#128 := rfl
@[simp] theorem applyReset_dout (s : State) : (applyReset s).dout = 0#128 := rfl
@[simp] theorem applyReset_tag (s : State) : (applyReset s).tag = 0#128 := rfl
@[simp] theorem applyReset_k1 (s : State) : (applyReset s).k1 = 0#128 := rfl
@[simp] theorem applyReset_k2 (s : State) : (applyReset s).k2 = 0#128 := rfl
@[simp] theorem applyReset_sched (s : State) : (applyReset s).sched = Vector.replicate 44 0#32 := rfl
@[simp] theorem applyReset_msg (s : State) : (applyReset s).msg = s.msg := rfl
@[simp] theorem applyReset_cap (s : State) : (applyReset s).cap = s.cap := rfl
@[simp] theorem applyReset_port (s : State) : (applyReset s).port = s.port := rfl

@[simp] theorem reset_eng : State.reset.eng = .idle := rfl
@[simp] theorem reset_done : State.reset.done = false := rfl
@[simp] theorem reset_schedValid : State.reset.schedValid = false := rfl
@[simp] theorem reset_subkeyValid : State.reset.subkeyValid = false := rfl
@[simp] theorem reset_werr : State.reset.werr = false := rfl
@[simp] theorem reset_errcode : State.reset.errcode = none := rfl
@[simp] theorem reset_tlen : State.reset.tlen = 0x80#32 := rfl
@[simp] theorem reset_msgLen : State.reset.msgLen = 0#32 := rfl
@[simp] theorem reset_key : State.reset.key = 0#128 := rfl
@[simp] theorem reset_din : State.reset.din = 0#128 := rfl
@[simp] theorem reset_dout : State.reset.dout = 0#128 := rfl
@[simp] theorem reset_tag : State.reset.tag = 0#128 := rfl
@[simp] theorem reset_k1 : State.reset.k1 = 0#128 := rfl
@[simp] theorem reset_k2 : State.reset.k2 = 0#128 := rfl
@[simp] theorem reset_sched : State.reset.sched = Vector.replicate 44 0#32 := rfl
@[simp] theorem reset_msg : State.reset.msg = [] := rfl
@[simp] theorem reset_cap : State.reset.cap = Config.msgCap := rfl
@[simp] theorem reset_port : State.reset.port = ⟨[], []⟩ := rfl

theorem withPending_self (s : State) : withPending s s.port.pending = s := rfl

@[simp] theorem withPending_withPending (s : State) (es fs : List Event) :
    withPending (withPending s es) fs = withPending s fs := rfl

end Sys2Proof.Machine
end

