-- ==== Sys2Proof/Laws/Command.lean ====
section
/-! SUPPORT. Everything a command step, a bus transaction and a machine step can do, said once (30_encoding.md R95 to
R99, 20_memory.md R68, R69). -/

namespace Sys2Proof.Machine

/-- The results each command writes at its completion (R91). -/
def resultsOf : Instr → State → State
  | .expand => expandEffect
  | .derive => deriveEffect
  | .encrypt => encryptEffect
  | .cmac => cmacEffect
  | .trunc => truncEffect
  | .clear => clearEffect

/-- Every command in every state answers a next state, by the shared operation. -/
theorem exec_eq (i : Instr) (s : State) : exec i s = .next (command i (resultsOf i) s) := by
  cases i <;> rfl

theorem exec_idle (i : Instr) {s : State} (h : s.eng = .idle) : exec i s = .next (issue i s) := by
  rw [exec_eq, command, h]

theorem exec_busy_self (i : Instr) {s : State} (h : s.eng = .busy i) :
    exec i s = .next (finish (resultsOf i s)) := by
  rw [exec_eq, command, h]; simp [complete]

theorem exec_busy_other (i : Instr) {s : State} {op : Instr} (h : s.eng = .busy op) (hne : op ≠ i) :
    exec i s = .next (dropWrite s) := by
  rw [exec_eq, command, h]; simp [hne]

/-- What an issue step can do: raise the first failing check's error, or accept. -/
theorem issue_cases (i : Instr) (s : State) :
    (∃ e, issueCheck i s = some e ∧ issue i s = raiseError e (clearReport s)) ∨
      (issueCheck i s = none ∧ issue i s = accept i (clearReport s)) := by
  unfold issue
  split
  · exact .inl ⟨_, ‹_›, rfl⟩
  · exact .inr ⟨‹_›, rfl⟩

/-- No issue check raises InvalidKeyLength (R281). -/
theorem issueCheck_ne_invalidKeyLength (i : Instr) (s : State) : issueCheck i s ≠ some .invalidKeyLength := by
  cases i <;> simp only [issueCheck, checkSched, checkTlen, checkMsgLen] <;> (repeat' split) <;> simp

theorem coreStep_idle {s : State} (h : s.eng = .idle) : coreStep s = .next s := by rw [coreStep, h]

theorem coreStep_busy {s : State} {op : Instr} (h : s.eng = .busy op) :
    coreStep s = .next (finish (resultsOf op s)) := by
  rw [coreStep, h]; exact exec_busy_self op h

theorem busWrite_busy {s : State} {op : Instr} (h : s.eng = .busy op) (off : Offset) (v : Word) :
    busWrite off v s = .next (dropWrite s) := by rw [busWrite, h]

theorem busWrite_idle {s : State} (h : s.eng = .idle) (off : Offset) (v : Word) :
    busWrite off v s = idleWrite v s (targetOf s.cap.bytes off) := by rw [busWrite, h]

theorem step_nil {s : State} (h : s.port.pending = []) : step s = coreStep s := by rw [step, h]

theorem step_cons {s : State} {e : Event} {rest : List Event} (h : s.port.pending = e :: rest) :
    step s = takeEvent e (withPending s rest) := by rw [step, h]

/-- What an idle write can do: a command issue, an illegal word reported, a register or message word stored, or
nothing (R69). -/
theorem idleWrite_cases (v : Word) (s t : State) (tg : Target) (h : idleWrite v s tg = .next t) :
    (∃ i, tg = .cmd ∧ decode v = .command i ∧ exec i s = .next t) ∨
    (tg = .cmd ∧ (∀ i, decode v ≠ .command i) ∧ t = issueIllegal s) ∨
    (tg = .tlen ∧ t = { s with tlen := v }) ∨
    (tg = .msgLen ∧ t = { s with msgLen := v }) ∨
    (∃ j, tg = .key j ∧
      t = { s with key := blockSetWord s.key j v, schedValid := false, subkeyValid := false }) ∨
    (∃ j, tg = .din j ∧ t = { s with din := blockSetWord s.din j v }) ∨
    (∃ j, tg = .msg j ∧ t = { s with msg := memSetWord s.msg j v }) ∨
    t = s := by
  cases tg with
  | cmd =>
    simp only [idleWrite, issueWord] at h
    split at h
    · exact .inl ⟨_, rfl, ‹_›, h⟩
    all_goals
      refine .inr (.inl ⟨rfl, fun i hi => ?_, (Host.Outcome.next.inj h).symm⟩)
      simp_all
  | tlen => exact .inr (.inr (.inl ⟨rfl, (Host.Outcome.next.inj h).symm⟩))
  | msgLen => exact .inr (.inr (.inr (.inl ⟨rfl, (Host.Outcome.next.inj h).symm⟩)))
  | key j => exact .inr (.inr (.inr (.inr (.inl ⟨j, rfl, (Host.Outcome.next.inj h).symm⟩))))
  | din j => exact .inr (.inr (.inr (.inr (.inr (.inl ⟨j, rfl, (Host.Outcome.next.inj h).symm⟩)))))
  | msg j => exact .inr (.inr (.inr (.inr (.inr (.inr (.inl ⟨j, rfl, (Host.Outcome.next.inj h).symm⟩))))))
  | status | cap | id | dout | tag | k1 | k2 | reserved =>
    exact .inr (.inr (.inr (.inr (.inr (.inr (.inr (Host.Outcome.next.inj h).symm))))))

@[simp] theorem runSteps_zero (s : State) : runSteps 0 s = .next s := rfl

theorem runSteps_succ {s t : State} (h : step s = .next t) (k : Nat) : runSteps (k + 1) s = runSteps k t := by
  rw [runSteps, h]

theorem runSteps_add {s t : State} {j : Nat} (h : runSteps j s = .next t) (k : Nat) :
    runSteps (j + k) s = runSteps k t := by
  induction j generalizing s with
  | zero => cases h; rw [Nat.zero_add]
  | succ j ih =>
    rw [runSteps] at h
    split at h
    · rw [Nat.succ_add, runSteps_succ ‹_›, ih h]
    · cases h
    · cases h

theorem hostRun_next {M : Host.Core} {s t : M.State} (h : M.step s = .next t) (k : Nat) :
    M.run (k + 1) s = M.run k t := by rw [Host.Core.run, h]

theorem hostRun_fault {M : Host.Core} {s : M.State} {r : M.Fault} (h : M.step s = .fault r) (k : Nat) :
    M.run (k + 1) s = .fault r := by rw [Host.Core.run, h]

theorem hostRun_refused {M : Host.Core} {s : M.State} {r : M.Refusal} (h : M.step s = .refused r) (k : Nat) :
    M.run (k + 1) s = .refused r := by rw [Host.Core.run, h]

/-- `runSteps` is the host's run of the machine. -/
theorem core_run_eq (k : Nat) (s : State) : Sys2Proof.core.run k s = runSteps k s := by
  induction k generalizing s with
  | zero => rfl
  | succ k ih =>
    rw [runSteps]
    cases h : step s with
    | next t => exact (hostRun_next (M := Sys2Proof.core) h k).trans (ih t)
    | fault r => exact hostRun_fault (M := Sys2Proof.core) h k
    | refused r => exact hostRun_refused (M := Sys2Proof.core) h k

/-- What a read returns does not depend on the port. -/
@[simp] theorem busRead_withPort (s : State) (p : Port) (off : Offset) :
    busRead { s with port := p } off = busRead s off := by
  unfold busRead
  show readTarget _ (targetOf s.cap.bytes off) = readTarget s (targetOf s.cap.bytes off)
  cases targetOf s.cap.bytes off <;> rfl

/-- The sizes of the message RAM that the spec allows (R10). -/
theorem cap_bounds (c : Cap) : 16 ≤ c.bytes ∧ c.bytes ≤ 32768 ∧ c.bytes % 4 = 0 := by
  unfold Cap.bytes; have := c.extraWords.isLt; omega

/-- Every size the spec allows is a value of `Cap` (R10). -/
theorem cap_complete {n : Nat} (h1 : 16 ≤ n) (h2 : n ≤ 32768) (h4 : n % 4 = 0) : ∃ c : Cap, c.bytes = n :=
  ⟨⟨⟨(n - 16) / 4, by omega⟩⟩, by simp only [Cap.bytes]; omega⟩

/-- An access is 4-byte aligned (R61). -/
theorem alignedOffset_mod (off : Offset) : alignedOffset off % 4 = 0 := by
  have e : (off &&& 0xFFFC#16) = (off >>> 2) <<< 2 := by
    ext i hi; interval_cases i <;> simp
  rw [alignedOffset, e, BitVec.toNat_shiftLeft, Nat.shiftLeft_eq]; omega

/-- An aligned offset is itself (R61). -/
theorem alignedOffset_ofNat {a : Nat} (h4 : a % 4 = 0) (h : a < 0x10000) :
    alignedOffset (BitVec.ofNat 16 a) = a := by
  have e : ∀ off : Offset, (off &&& 0xFFFC#16) = (off >>> 2) <<< 2 := by
    intro off; ext i hi; interval_cases i <;> simp
  rw [alignedOffset, e, BitVec.toNat_shiftLeft, BitVec.toNat_ushiftRight, BitVec.toNat_ofNat,
    Nat.shiftLeft_eq, Nat.shiftRight_eq_div_pow]
  omega

/-- CMD stands at offset 0 (R22). -/
theorem targetOf_of_cmd {cap : Nat} {off : Offset} (h : off &&& 0xFFFC#16 = 0#16) : targetOf cap off = .cmd := by
  unfold targetOf alignedOffset; rw [h]; rfl

/-- Where each target stands (R22), for an aligned offset a and a message RAM of `cap` bytes. -/
def StandsAt (cap a : Nat) : Target → Prop
  | .cmd => a = 0x0000
  | .status => a = 0x0004
  | .tlen => a = 0x0008
  | .msgLen => a = 0x000C
  | .cap => a = 0x0010
  | .id => a = 0x0014
  | .key j => 0x0020 ≤ a ∧ a < 0x0030 ∧ j = (a - 0x0020) / 4
  | .din j => 0x0030 ≤ a ∧ a < 0x0040 ∧ j = (a - 0x0030) / 4
  | .dout j => 0x0040 ≤ a ∧ a < 0x0050 ∧ j = (a - 0x0040) / 4
  | .tag j => 0x0050 ≤ a ∧ a < 0x0060 ∧ j = (a - 0x0050) / 4
  | .k1 j => 0x0060 ≤ a ∧ a < 0x0070 ∧ j = (a - 0x0060) / 4
  | .k2 j => 0x0070 ≤ a ∧ a < 0x0080 ∧ j = (a - 0x0070) / 4
  | .msg j => 0x8000 ≤ a ∧ a < 0x8000 + cap ∧ j = (a - 0x8000) / 4
  | .reserved => (0x0018 ≤ a ∧ a < 0x0020) ∨ (0x0080 ≤ a ∧ a < 0x8000) ∨ 0x8000 + cap ≤ a

theorem apply_ite_left {α : Type} {P : α → Prop} {p : Prop} [Decidable p] {x y : α} (hx : p → P x)
    (hy : ¬ p → P y) : P (if p then x else y) := by
  by_cases hp : p
  · rw [if_pos hp]; exact hx hp
  · rw [if_neg hp]; exact hy hp

/-- What `targetOf` can answer, said once (R22). -/
theorem targetOf_standsAt (cap : Nat) (off : Offset) : StandsAt cap (alignedOffset off) (targetOf cap off) := by
  have h4 := alignedOffset_mod off
  unfold targetOf
  generalize alignedOffset off = a at h4
  dsimp only
  iterate 15
    refine apply_ite_left ?_ ?_ <;> intro _
    · unfold StandsAt; omega
  unfold StandsAt; omega

/-- Message word j of the register map lies inside the RAM (R22, R64). -/
theorem targetOf_msg_lt {c : Cap} {off : Offset} {j : Nat} (h : targetOf c.bytes off = .msg j) :
    4 * j + 3 < c.bytes := by
  have hp := targetOf_standsAt c.bytes off
  rw [h] at hp
  have := alignedOffset_mod off
  have := cap_bounds c
  unfold StandsAt at hp
  omega

/-- No two targets stand at one offset (R22). -/
theorem StandsAt.unique {cap a : Nat} {x y : Target} (hx : StandsAt cap a x) (hy : StandsAt cap a y) : x = y := by
  cases x <;> cases y <;> simp only [StandsAt] at hx hy <;>
    first
    | rfl
    | omega
    | rw [hx.2.2, hy.2.2]

/-- The target of an offset is the one that stands there (R22). -/
theorem targetOf_eq {cap : Nat} {off : Offset} {tg : Target} (h : StandsAt cap (alignedOffset off) tg) :
    targetOf cap off = tg := (targetOf_standsAt cap off).unique h

/-- The message RAM from 0x8000 on (R22, R64). -/
theorem targetOf_of_msg {cap : Nat} {off : Offset} {j : Nat} (ha : alignedOffset off = 0x8000 + 4 * j)
    (hj : 4 * j < cap) : targetOf cap off = .msg j := by
  apply targetOf_eq
  simp only [StandsAt, ha]
  omega

/-- Everything a step can do, for a property of states: what every command issue, illegal word, register write,
message write, dropped write, completion and reset keeps, every step keeps. -/
theorem step_preserves {P : State → Prop} {s t : State} (hs : step s = .next t)
    (hport : ∀ s p, P s → P { s with port := p })
    (hissue : ∀ i s, s.eng = .idle → P s → P (issue i s))
    (hillegal : ∀ s, s.eng = .idle → P s → P (issueIllegal s))
    (htlen : ∀ s v, s.eng = .idle → P s → P { s with tlen := v })
    (hmsgLen : ∀ s v, s.eng = .idle → P s → P { s with msgLen := v })
    (hkey : ∀ s b, s.eng = .idle → P s → P { s with key := b, schedValid := false, subkeyValid := false })
    (hdin : ∀ s b, s.eng = .idle → P s → P { s with din := b })
    (hmsg : ∀ s j v, s.eng = .idle → 4 * j + 3 < s.cap.bytes → P s → P { s with msg := memSetWord s.msg j v })
    (hdrop : ∀ op s, s.eng = .busy op → P s → P (dropWrite s))
    (hcomplete : ∀ op s, s.eng = .busy op → P s → P (finish (resultsOf op s)))
    (hreset : ∀ s, P s → P (applyReset s)) (h : P s) : P t := by
  have hcore : ∀ s t, P s → coreStep s = .next t → P t := by
    intro s t h hx
    cases he : s.eng with
    | idle => rw [coreStep_idle he] at hx; cases hx; exact h
    | busy op => rw [coreStep_busy he] at hx; cases hx; exact hcomplete op s he h
  cases hp : s.port.pending with
  | nil => rw [step_nil hp] at hs; exact hcore _ _ h hs
  | cons e rest =>
    rw [step_cons hp] at hs
    have h' : P (withPending s rest) := hport _ _ h
    cases e with
    | reset => cases hs; exact hreset _ h'
    | complete => exact hcore _ _ h' hs
    | read off => cases hs; exact hport _ _ h'
    | write off v =>
      simp only [takeEvent] at hs
      cases he : (withPending s rest).eng with
      | busy op => rw [busWrite_busy he] at hs; cases hs; exact hdrop _ _ he h'
      | idle =>
        rw [busWrite_idle he] at hs
        rcases idleWrite_cases _ _ _ _ hs with ⟨i, -, -, hx⟩ | ⟨-, -, rfl⟩ | ⟨-, rfl⟩ | ⟨-, rfl⟩ | ⟨j, -, rfl⟩ |
          ⟨j, -, rfl⟩ | ⟨j, ht, rfl⟩ | rfl
        · rw [exec_idle i he] at hx; cases hx; exact hissue _ _ he h'
        · exact hillegal _ he h'
        · exact htlen _ _ he h'
        · exact hmsgLen _ _ he h'
        · exact hkey _ _ he h'
        · exact hdin _ _ he h'
        · exact hmsg _ _ _ he (targetOf_msg_lt ht) h'
        · exact h'

end Sys2Proof.Machine
end

