-- ==== Sys2Proof/Laws/Decode.lean ====
section
/-! SUPPORT. The fields of an encoded command, and the two ways `decode` and `legal` say the same (30_encoding.md R90 to
R96). -/

namespace Sys2Proof

@[simp] theorem fieldsOf_encode (i : Instr) : fieldsOf (encode i) = ⟨0#28, opOf i⟩ := by cases i <;> rfl

theorem commandOfOp_eq_some {op : BitVec 4} {i : Instr} (h : commandOfOp op = some i) : op = opOf i := by
  revert h; revert i; revert op; decide

/-- A word is rebuilt from its two fields (R90). -/
theorem append_fieldsOf (v : Word) : (fieldsOf v).rsv ++ (fieldsOf v).op = v := by
  ext i hi
  simp only [fieldsOf, BitVec.getElem_append, BitVec.getElem_extractLsb']
  split
  · simp [BitVec.getLsbD_eq_getElem hi]
  · have e : 4 + (i - 4) = i := by omega
    simp [e, BitVec.getLsbD_eq_getElem hi]

/-- What `decode` can answer, by the fields of the word (R93, R96). -/
theorem decode_cases (v : Word) :
    ((fieldsOf v).rsv ≠ 0#28 ∧ decode v = .reservedBitsSet) ∨
    ((fieldsOf v).rsv = 0#28 ∧ commandOfOp (fieldsOf v).op = none ∧ decode v = .opNotAssigned) ∨
    (∃ i, (fieldsOf v).rsv = 0#28 ∧ commandOfOp (fieldsOf v).op = some i ∧ decode v = .command i) := by
  unfold decode
  split
  · exact .inl ⟨‹_›, rfl⟩
  · split
    · exact .inr (.inr ⟨_, by simp_all, ‹_›, rfl⟩)
    · exact .inr (.inl ⟨by simp_all, ‹_›, rfl⟩)

end Sys2Proof
end

