-- ==== Sys2Proof/Laws/Memory.lean ====
section
/-! SUPPORT. The message RAM: a read after a write, every other byte left alone, and the canonical form kept
(20_memory.md R64). -/

namespace Sys2Proof.Machine

theorem memGet_memSet (m : Memory) (a b : Nat) (v : Byte) :
    memGet (memSet m a v) b = if a = b then some v else memGet m b := by
  induction m with
  | nil => simp [memSet, memGet]
  | cons c m ih =>
    obtain ⟨k, w⟩ := c
    simp only [memSet]
    split
    · simp [memGet]
    · split
      · rename_i hak; subst hak; by_cases e : a = b <;> simp [memGet, e]
      · by_cases e : k = b
        · subst e; simp [memGet, ‹¬ a = k›]
        · simp [memGet, e, ih]

@[simp] theorem memGet_memSet_self (m : Memory) (a : Nat) (v : Byte) :
    memGet (memSet m a v) a = some v := by simp [memGet_memSet]

theorem memGet_memSet_ne (m : Memory) {a b : Nat} (v : Byte) (hab : a ≠ b) :
    memGet (memSet m a v) b = memGet m b := by simp [memGet_memSet, hab]

/-- An entry after a write is the one written or was there before. -/
theorem mem_memSet {m : Memory} {a : Nat} {v : Byte} {c : Host.Cell} (h : c ∈ memSet m a v) :
    c = (a, v) ∨ c ∈ m := by
  induction m with
  | nil => simpa [memSet] using h
  | cons d m ih =>
    obtain ⟨k, w⟩ := d
    simp only [memSet] at h
    split at h
    · simpa using h
    · split at h
      · rcases List.mem_cons.mp h with h | h
        · exact .inl h
        · exact .inr (List.mem_cons_of_mem _ h)
      · rcases List.mem_cons.mp h with h | h
        · exact .inr (h ▸ List.mem_cons_self)
        · exact (ih h).imp id (List.mem_cons_of_mem _)

/-- Every write keeps the canonical form. -/
theorem memSet_wf {m : Memory} (h : Memory.wf m) (a : Nat) (v : Byte) : Memory.wf (memSet m a v) := by
  induction m with
  | nil => simp [memSet]
  | cons d m ih =>
    obtain ⟨k, w⟩ := d
    obtain ⟨hk, hm⟩ := List.pairwise_cons.mp h
    simp only [memSet]
    split
    · refine List.pairwise_cons.mpr ⟨fun c hc => ?_, h⟩
      rcases List.mem_cons.mp hc with rfl | hc
      · assumption
      · exact lt_trans ‹a < k› (hk c hc)
    · split
      · subst_vars; exact List.pairwise_cons.mpr ⟨hk, hm⟩
      · refine List.pairwise_cons.mpr ⟨fun c hc => ?_, ih hm⟩
        rcases mem_memSet hc with rfl | hc
        · show k < a; omega
        · exact hk c hc

theorem memSetWord_wf {m : Memory} (h : Memory.wf m) (j : Nat) (v : Word) : Memory.wf (memSetWord m j v) :=
  memSet_wf (memSet_wf (memSet_wf (memSet_wf h _ _) _ _) _ _) _ _

/-- The bytes a word write lists lie in that word or were listed before. -/
theorem mem_memSetWord {m : Memory} {j : Nat} {v : Word} {c : Host.Cell} (h : c ∈ memSetWord m j v) :
    (4 * j ≤ c.1 ∧ c.1 ≤ 4 * j + 3) ∨ c ∈ m := by
  unfold memSetWord at h
  rcases mem_memSet h with rfl | h
  · left; simp
  rcases mem_memSet h with rfl | h
  · left; simp
  rcases mem_memSet h with rfl | h
  · left; simp
  rcases mem_memSet h with rfl | h
  · left; simp
  exact .inr h

/-- What a word write leaves at each index: the four bytes of the word, and every other byte as it was. -/
theorem memGet_memSetWord (m : Memory) (j a : Nat) (v : Word) :
    memGet (memSetWord m j v) a =
      if 4 * j ≤ a ∧ a ≤ 4 * j + 3 then some (wordByte v (a - 4 * j)) else memGet m a := by
  unfold memSetWord
  simp only [memGet_memSet]
  by_cases e3 : 4 * j + 3 = a
  · subst e3; simp
  by_cases e2 : 4 * j + 2 = a
  · subst e2; simp
  by_cases e1 : 4 * j + 1 = a
  · subst e1; simp
  by_cases e0 : 4 * j = a
  · subst e0; simp
  · rw [if_neg e3, if_neg e2, if_neg e1, if_neg e0, if_neg (by omega)]

@[simp] theorem length_memRead (s : State) (i n : Nat) : (memRead s i n).length = n := by simp [memRead]

/-- A read of n bytes depends on those n bytes only (R66). -/
theorem memRead_congr {s t : State} {i n : Nat} (h : ∀ a, i ≤ a → a < i + n → msgByte s a = msgByte t a) :
    memRead s i n = memRead t i n := by
  refine List.map_congr_left fun k hk => h _ (by omega) ?_
  have := List.mem_range.mp hk; omega

end Sys2Proof.Machine
end

