-- ==== Sys2Proof/Laws/Operands.lean ====
section
/-! SUPPORT. Bytes and words of a block: each view reads back what built it (00_scope.md R11, 10_state.md R41). -/

namespace Sys2Proof.Machine

theorem getLsbD_foldBytes (f : Nat → Byte) (n i : Nat) :
    BitVec.getLsbD ((List.range n).foldl (fun (acc : Block) k => (acc <<< 8) ||| (f k).setWidth 128) 0#128) i =
      (decide (i < 128) && decide (i < 8 * n) && (f (n - 1 - i / 8)).getLsbD (i % 8)) := by
  induction n generalizing i with
  | zero => simp
  | succ n ih =>
    simp only [List.range_succ, List.foldl_append, List.foldl_cons, List.foldl_nil, BitVec.getLsbD_or,
      BitVec.getLsbD_shiftLeft, BitVec.getLsbD_setWidth, ih]
    by_cases hi : i < 8
    · simp [hi, Nat.div_eq_of_lt hi, Nat.mod_eq_of_lt hi, (by omega : i < 128), (by omega : i < 8 * (n + 1))]
    · have e1 : (i - 8) % 8 = i % 8 := by omega
      have e2 : n - 1 - (i - 8) / 8 = n - i / 8 := by omega
      have e3 : (f n).getLsbD i = false := BitVec.getLsbD_of_ge _ _ (by omega)
      simp only [hi, e1, e2, e3, decide_false, Bool.not_false, Bool.and_true, Bool.and_false, Bool.or_false,
        Nat.add_sub_cancel]
      by_cases h1 : i < 128 <;> by_cases h2 : i < 8 * (n + 1)
      · simp [h1, h2, (by omega : i - 8 < 128), (by omega : i - 8 < 8 * n)]
      · simp [h1, h2, (by omega : 8 * n ≤ i - 8)]
      · simp [h1]
      · simp [h1]

/-- Bit i of a block is bit i mod 8 of byte 15 - i div 8 (R11). -/
theorem getLsbD_blockOfBytes (f : Nat → Byte) (i : Nat) :
    (blockOfBytes f).getLsbD i = (decide (i < 128) && (f (15 - i / 8)).getLsbD (i % 8)) := by
  rw [blockOfBytes, getLsbD_foldBytes]
  by_cases h : i < 128 <;> simp [h]

/-- Bit i of byte k of a block (R11). -/
theorem getLsbD_blockByte (b : Block) (k i : Nat) :
    (blockByte b k).getLsbD i = (decide (i < 8) && b.getLsbD (8 * (15 - k) + i)) := by
  rw [blockByte, BitVec.getLsbD_extractLsb']

/-- Byte k of a block built from its bytes is byte k (R11). -/
theorem blockByte_blockOfBytes (f : Nat → Byte) {k : Nat} (hk : k < 16) : blockByte (blockOfBytes f) k = f k := by
  apply BitVec.eq_of_getLsbD_eq
  intro i hi
  have e1 : (8 * (15 - k) + i) / 8 = 15 - k := by omega
  have e2 : (8 * (15 - k) + i) % 8 = i := by omega
  have e3 : 15 - (15 - k) = k := by omega
  rw [getLsbD_blockByte, getLsbD_blockOfBytes, e1, e2, e3]
  simp [hi, (by omega : 8 * (15 - k) + i < 128)]

/-- Two blocks with the same 16 bytes are equal (R11). -/
theorem block_ext {a b : Block} (h : ∀ k < 16, blockByte a k = blockByte b k) : a = b := by
  apply BitVec.eq_of_getLsbD_eq
  intro i hi
  have e := congrArg (fun x => x.getLsbD (i % 8)) (h (15 - i / 8) (by omega))
  have e8 : i % 8 < 8 := Nat.mod_lt _ (by omega)
  have ei : 8 * (15 - (15 - i / 8)) + i % 8 = i := by omega
  simpa only [getLsbD_blockByte, e8, ei, decide_true, Bool.true_and] using e

/-- A block is its 16 bytes (R11). -/
theorem blockOfBytes_blockByte (b : Block) : blockOfBytes (blockByte b) = b :=
  block_ext fun _ hk => blockByte_blockOfBytes _ hk

/-- Bytes act one by one under XOR (R12). -/
@[simp] theorem blockByte_xor (a b : Block) (k : Nat) :
    blockByte (a ^^^ b) k = blockByte a k ^^^ blockByte b k := by
  apply BitVec.eq_of_getLsbD_eq
  intro i hi
  simp only [getLsbD_blockByte, BitVec.getLsbD_xor, hi, decide_true, Bool.true_and]

theorem getLsbD_append4 {n : Nat} (a b c d : BitVec n) (i : Nat) :
    (a ++ b ++ c ++ d).getLsbD i =
      if i < n then d.getLsbD i
      else if i - n < n then c.getLsbD (i - n)
      else if i - n - n < n then b.getLsbD (i - n - n) else a.getLsbD (i - n - n - n) := by
  simp only [BitVec.getLsbD_append]

/-- Word j of a block built from its words is word j (R41). -/
theorem blockWord_blockOfWords (f : Nat → Word) {j : Nat} (hj : j < 4) : blockWord (blockOfWords f) j = f j := by
  apply BitVec.eq_of_getLsbD_eq
  intro i hi
  rw [blockWord, BitVec.getLsbD_extractLsb', blockOfWords]
  simp only [hi, decide_true, Bool.true_and]
  refine (getLsbD_append4 (f 0) (f 1) (f 2) (f 3) _).trans ?_
  obtain rfl | rfl | rfl | rfl : j = 0 ∨ j = 1 ∨ j = 2 ∨ j = 3 := by omega
  · rw [if_neg (by omega), if_neg (by omega), if_neg (by omega)]; congr 1; omega
  · rw [if_neg (by omega), if_neg (by omega), if_pos (by omega)]; congr 1; omega
  · rw [if_neg (by omega), if_pos (by omega)]; congr 1; omega
  · rw [if_pos (by omega)]; simp

/-- Two blocks with the same four words are equal (R41). -/
theorem block_ext_words {a b : Block} (h : ∀ j < 4, blockWord a j = blockWord b j) : a = b := by
  apply BitVec.eq_of_getLsbD_eq
  intro i hi
  have e := congrArg (fun x => x.getLsbD (i % 32)) (h (3 - i / 32) (by omega))
  have e8 : i % 32 < 32 := Nat.mod_lt _ (by omega)
  have ei : 32 * (3 - (3 - i / 32)) + i % 32 = i := by omega
  simpa only [blockWord, BitVec.getLsbD_extractLsb', e8, ei, decide_true, Bool.true_and] using e

/-- A block is its four words (R41). -/
theorem blockOfWords_blockWord (b : Block) : blockOfWords (blockWord b) = b :=
  block_ext_words fun _ hj => blockWord_blockOfWords _ hj

/-- Replacing word j leaves the other words as they were (R41). -/
theorem blockWord_blockSetWord (b : Block) (j : Nat) (v : Word) {i : Nat} (hi : i < 4) :
    blockWord (blockSetWord b j v) i = if i = j then v else blockWord b i :=
  blockWord_blockOfWords _ hi

/-- Byte k of a word built from its bytes (R64, R160). -/
theorem wordByte_wordOfBytes (b0 b1 b2 b3 : Byte) {k : Nat} (hk : k < 4) :
    wordByte (wordOfBytes b0 b1 b2 b3) k = [b0, b1, b2, b3].getD k 0#8 := by
  apply BitVec.eq_of_getLsbD_eq
  intro i hi
  rw [wordByte, BitVec.getLsbD_extractLsb', wordOfBytes]
  simp only [hi, decide_true, Bool.true_and]
  refine (getLsbD_append4 b0 b1 b2 b3 _).trans ?_
  obtain rfl | rfl | rfl | rfl : k = 0 ∨ k = 1 ∨ k = 2 ∨ k = 3 := by omega
  · rw [if_neg (by omega), if_neg (by omega), if_neg (by omega)]; simp; congr 1; omega
  · rw [if_neg (by omega), if_neg (by omega), if_pos (by omega)]; simp; congr 1; omega
  · rw [if_neg (by omega), if_pos (by omega)]; simp
  · rw [if_pos (by omega)]; simp

/-- A word is its four bytes (R64, R160). -/
theorem wordOfBytes_wordByte (v : Word) :
    wordOfBytes (wordByte v 0) (wordByte v 1) (wordByte v 2) (wordByte v 3) = v := by
  apply BitVec.eq_of_getLsbD_eq
  intro i hi
  rw [wordOfBytes]
  refine (getLsbD_append4 _ _ _ _ _).trans ?_
  simp only [wordByte, BitVec.getLsbD_extractLsb']
  repeat' split
  all_goals simp only [*, (by omega : i - 8 - 8 - 8 < 8), decide_true, Bool.true_and]
  all_goals congr 1
  all_goals omega

end Sys2Proof.Machine
end

