-- ==== Sys2Proof/Laws/PerInstr.lean ====
section
/-! SUPPORT. Per-command laws, one lemma per constructor of Instr. -/

/-- The word of a command is well formed (30_encoding.md R96): its reserved bits are 0 and its OP is assigned. -/
def Sys2Proof.Laws.LegalWord.Statement (i : Sys2Proof.Instr) : Prop :=
  (Sys2Proof.fieldsOf (Sys2Proof.encode i)).wellFormed = true ∧ Sys2Proof.legal (Sys2Proof.encode i) = true

theorem Sys2Proof.Laws.LegalWord.expand : Sys2Proof.Laws.LegalWord.Statement .expand := ⟨rfl, rfl⟩
theorem Sys2Proof.Laws.LegalWord.derive : Sys2Proof.Laws.LegalWord.Statement .derive := ⟨rfl, rfl⟩
theorem Sys2Proof.Laws.LegalWord.encrypt : Sys2Proof.Laws.LegalWord.Statement .encrypt := ⟨rfl, rfl⟩
theorem Sys2Proof.Laws.LegalWord.cmac : Sys2Proof.Laws.LegalWord.Statement .cmac := ⟨rfl, rfl⟩
theorem Sys2Proof.Laws.LegalWord.trunc : Sys2Proof.Laws.LegalWord.Statement .trunc := ⟨rfl, rfl⟩
theorem Sys2Proof.Laws.LegalWord.clear : Sys2Proof.Laws.LegalWord.Statement .clear := ⟨rfl, rfl⟩
end

