-- ==== Sys2Proof/Tests/Slice0.lean ====
section
/-! SUPPORT. The model's own tests. Every expected value is the spec's: the opcode map (30_encoding.md R92, R93) and
the test vectors (95_test_vectors.md V1 to V21, 42_subkey_derivation.md R183). The witness theorems give, for each
statement of Certificates/Slice0/Obligations.lean that has hypotheses, states and operands that meet them. -/

open Sys2Proof Sys2Proof.Machine

namespace Sys2Proof.Tests

/-! ### States the tests start from -/

/-- The reset state with the least message RAM, 16 bytes. -/
def base : State := { State.reset with cap := ⟨0⟩ }

/-- The common key K of the vectors. -/
def keyK : Block := 0x2b7e151628aed2a6abf7158809cf4f3c#128

/-- K is loaded and nothing else. -/
def keyed : State := { base with key := keyK }

/-- K is loaded and expanded. -/
def expanded : State := { keyed with sched := expand keyK, schedValid := true }

/-- K is loaded and expanded, and SUBKEY_VALID is set. -/
def expandedAndDerived : State := { expanded with subkeyValid := true }

/-- A command is accepted and has not completed. -/
def running (i : Instr) (s : State) : State := { s with eng := .busy i }

/-- The events still to come. -/
def withEvents (s : State) (es : List Event) : State := { s with port := ⟨es, []⟩ }

/-- A step answers a next state that meets a condition. -/
def nextMeets (o : Host.Outcome State Fault Refusal) (p : State → Bool) : Bool :=
  match o with
  | .next t => p t
  | .fault _ => false
  | .refused _ => false

/-- STATUS after one step on a command word that is the next event (V19). -/
def statusAfter (s : State) (w : Nat) (v : Word) : Bool :=
  nextMeets (step (s.withFetchWord 32 w)) fun t => statusWord t == v

/-! ### WellFormed refuses ill-formed command words (R90, R92) -/

theorem test_wf_reserved_bit_set : CmdWord.rsvClear ⟨0x0000001#28, 0x1#4⟩ = false := by decide
theorem test_wf_top_reserved_bit_set : CmdWord.wellFormed ⟨0x8000000#28, 0x6#4⟩ = false := by decide
theorem test_wf_op_zero : CmdWord.opAssigned ⟨0#28, 0x0#4⟩ = false := by decide
theorem test_wf_op_seven : CmdWord.wellFormed ⟨0#28, 0x7#4⟩ = false := by decide
theorem test_wf_op_fifteen : CmdWord.wellFormed ⟨0#28, 0xF#4⟩ = false := by decide
theorem test_wf_cmac : CmdWord.wellFormed ⟨0#28, 0x4#4⟩ = true := by decide

/-! ### Decoding (R92, R93) -/

theorem test_decode_expand : decode 0b00000000000000000000000000000001#32 = .command .expand := by decide
theorem test_decode_derive : decode 0b00000000000000000000000000000010#32 = .command .derive := by decide
theorem test_decode_encrypt : decode 0b00000000000000000000000000000011#32 = .command .encrypt := by decide
theorem test_decode_cmac : decode 0b00000000000000000000000000000100#32 = .command .cmac := by decide
theorem test_decode_trunc : decode 0b00000000000000000000000000000101#32 = .command .trunc := by decide
theorem test_decode_clear : decode 0b00000000000000000000000000000110#32 = .command .clear := by decide
theorem test_decode_zero : decode 0x00000000#32 = .opNotAssigned := by decide
theorem test_decode_seven : decode 0x00000007#32 = .opNotAssigned := by decide
theorem test_decode_fifteen : decode 0x0000000F#32 = .opNotAssigned := by decide
theorem test_decode_reserved : decode 0x00000011#32 = .reservedBitsSet := by decide
theorem test_decode_top_bit : decode 0x80000004#32 = .reservedBitsSet := by decide
theorem test_table_word : (List.range 8).map (decodeTableWord 32) =
    [none, some .expand, some .derive, some .encrypt, some .cmac, some .trunc, some .clear, none] := by decide

/-! ### The issue of a command (V19) -/

theorem test_issue_illegal : statusAfter base 0x00000000 0x00000302#32 = true ∧
    statusAfter base 0x00000011 0x00000302#32 = true ∧ statusAfter base 0x00000007 0x00000302#32 = true := by decide
theorem test_issue_expand : nextMeets (step (base.withFetchWord 32 0x00000001))
    (fun t => t.eng == .busy .expand && statusWord t == 0x00000001#32) = true := by decide
theorem test_issue_derive_no_schedule : statusAfter base 0x00000002 0x00000402#32 = true := by decide
theorem test_issue_encrypt_no_schedule : statusAfter base 0x00000003 0x00000402#32 = true := by decide
theorem test_issue_cmac_priority :
    statusAfter { base with tlen := 129#32, msgLen := 0xFFFFFFFF#32 } 0x00000004 0x00000202#32 = true ∧
    statusAfter { base with msgLen := 17#32 } 0x00000004 0x00000502#32 = true ∧
    statusAfter { base with msgLen := 16#32 } 0x00000004 0x00000001#32 = true := by decide
theorem test_issue_trunc_negative :
    statusAfter { base with tlen := 0xFFFFFFFF#32 } 0x00000005 0x00000202#32 = true := by decide
theorem test_write_while_busy :
    nextMeets (step (withEvents (running .expand base) [.write 0x0000#16 0x00000001#32]))
      (fun t => statusWord t == 0x00000011#32) = true := by decide

/-! ### The completion of each command -/

theorem test_expand_completes : nextMeets (exec .expand (running .expand keyed))
    (fun t => roundKey t.sched 1 == 0xa0fafe1788542cb123a339392a6c7605#128 &&
      roundKey t.sched 10 == 0xd014f9a8c9ee2589e13f0cc8b6630ca6#128 && statusWord t == 0x00000006#32) = true := by
  decide +kernel
theorem test_derive_completes : nextMeets (exec .derive (running .derive expanded))
    (fun t => t.k1 == 0xfbeed618357133667c85e08f7236a8de#128 && t.k2 == 0xf7ddac306ae266ccf90bc11ee46d513b#128 &&
      statusWord t == 0x0000000E#32) = true := by decide +kernel
theorem test_encrypt_completes :
    nextMeets (exec .encrypt (running .encrypt { expanded with din := 0x6bc1bee22e409f96e93d7e117393172a#128 }))
      (fun t => t.dout == 0x3ad77bb40d7a3660a89ecaf32466ef97#128) = true := by decide +kernel
theorem test_cmac_empty : nextMeets (exec .cmac (running .cmac keyed))
    (fun t => t.tag == 0xbb1d6929e95937287fa37d129b756746#128 && statusWord t == 0x0000000E#32) = true := by
  decide +kernel
theorem test_trunc_completes : nextMeets
    (exec .trunc (running .trunc { base with tlen := 53#32, tag := 0xbb1d6929e95937287fa37d129b756746#128 }))
    (fun t => t.tag == 0xbb1d6929e95930000000000000000000#128) = true := by decide +kernel
theorem test_clear_completes : nextMeets (exec .clear (running .clear { expanded with msgLen := 5#32 }))
    (fun t => t.key == 0 && roundKey t.sched 10 == 0 && statusWord t == 0x00000002#32 && t.msgLen == 5#32) = true := by
  decide +kernel

/-! ### The functions the commands compute -/

/-- A prefix of the common plaintext P. -/
def plain (n : Nat) : List Byte := (List.range n).map fun k =>
  if k < 16 then blockByte 0x6bc1bee22e409f96e93d7e117393172a#128 k
  else blockByte 0xae2d8a571e03ac9c9eb76fac45af8e51#128 (k - 16)

theorem test_cmac_one_block : cmac keyK (plain 16) 128 = 0x070a16b46b4d4144f79bdd9dd04a287c#128 := by decide +kernel
theorem test_cmac_seventeen_bytes : cmac keyK (plain 17) 128 = 0xbc72cc168ec5a1434dcdb20bc1a2c2a4#128 := by
  decide +kernel
theorem test_encrypt_fips : encrypt (expand 0x000102030405060708090a0b0c0d0e0f#128) 0x00112233445566778899aabbccddeeff#128 =
    0x69c4e0d86a7b0430d8cdb78070b4c55a#128 := by decide +kernel
theorem test_sbox : [0x00#8, 0x01#8, 0x53#8, 0xFF#8].map sbox = [0x63#8, 0x7C#8, 0xED#8, 0x16#8] := by decide +kernel
theorem test_xtime : [0x00#8, 0x57#8, 0x80#8, 0xAE#8].map xtime = [0x00#8, 0xAE#8, 0x1B#8, 0x47#8] := by decide
theorem test_mix_column : (List.range 4).map (mixColumn 0xf2#8 0x0a#8 0x22#8 0x5c#8) =
    [0x9f#8, 0xdc#8, 0x58#8, 0x9d#8] := by decide +kernel
theorem test_shift_rows : shiftRows 0x000102030405060708090a0b0c0d0e0f#128 = 0x00050a0f04090e03080d02070c01060b#128 := by
  decide +kernel
theorem test_dbl : dbl 0xcdd297a9df1458771099f4b39468565c#128 = 0x9ba52f53be28b0ee2133e96728d0ac3f#128 ∧
    dbl 0x66e94bd4ef8a2c3b884cfa59ca342b2e#128 = 0xcdd297a9df1458771099f4b39468565c#128 := by decide +kernel
theorem test_last_block : (formatLastBlock (plain 31) 0xfbeed618357133667c85e08f7236a8de#128
    0xf7ddac306ae266ccf90bc11ee46d513b#128) = (2, 0x59f0266774e1ca5067bcaeb2a1c2dfbb#128) := by decide +kernel
theorem test_truncate : [0, 1, 7, 8, 9, 120, 128].map (truncateTag 0xbb1d6929e95937287fa37d129b756746#128) =
    [0x00000000000000000000000000000000#128, 0x80000000000000000000000000000000#128,
     0xba000000000000000000000000000000#128, 0xbb000000000000000000000000000000#128,
     0xbb000000000000000000000000000000#128, 0xbb1d6929e95937287fa37d129b756700#128,
     0xbb1d6929e95937287fa37d129b756746#128] := by decide +kernel

/-! ### Witnesses of the statements' hypotheses -/

theorem witness_DecodeAgreesWithEncode : decode 0x00000001#32 = .command .expand ∧ decode 0x00000006#32 = .command .clear := by
  decide

/-- The first and the last index of every bounded index: words of a block, bytes of a block, rows and columns of the AES
state, bytes shifted by the doubling, rounds and round constants. -/
theorem witness_BlockWordsPackBigEndian : 0 < 4 ∧ 3 < 4 := by decide
theorem witness_ShiftRowsMovesTheseBytes : 0 < 4 ∧ 3 < 4 ∧ 3 + 4 * 3 = 15 := by decide
theorem witness_SubBytesAndMixColumnsActLocally : 0 < 16 ∧ 15 < 16 ∧ 3 + 4 * 3 < 16 := by decide
theorem witness_EncryptIsTenRounds : 1 ≤ 1 ∧ 1 ≤ 9 ∧ 9 ≤ 9 := by decide
theorem witness_DoublingShiftsByteByByte : 0 < 15 ∧ 14 < 15 := by decide
theorem witness_RoundConstantsAreThePowersOfX : 1 ≤ 1 ∧ 1 ≤ 9 ∧ 9 ≤ 9 := by decide

/-- The five clauses, each for the state that meets it. -/
theorem witness_StepRunsTheDecodedCommand :
    (let s := withEvents base [.write 0x0003#16 0x00000004#32]
     s.eng = .idle ∧ s.port.pending = .write 0x0003#16 0x00000004#32 :: [] ∧ 0x0003#16 &&& 0xFFFC#16 = 0#16 ∧
       decode 0x00000004#32 = .command .cmac) ∧
    (let s := withEvents (running .trunc base) [.complete]
     s.eng = .busy .trunc ∧ s.port.pending = .complete :: []) ∧
    ((running .clear base).eng = .busy .clear ∧ (running .clear base).port.pending = []) ∧
    (let s := withEvents base [.complete]
     s.eng = .idle ∧ s.port.pending = .complete :: []) ∧
    (base.eng = .idle ∧ base.port.pending = []) := by decide

/-- One word for each of the three ways to be illegal, at their boundary values, and each is reported. -/
theorem witness_IllegalWordIsReportedAndNothingElse :
    (∀ n ∈ [0x00000011, 0xFFFFFFF1, 0x00000000, 0x00000007, 0x0000000F],
      let v : Word := BitVec.ofNat 32 n
      let s := withEvents base [.write 0x0000#16 v]
      s.eng = .idle ∧ s.port.pending = .write 0x0000#16 v :: [] ∧
        (v.extractLsb' 4 28 ≠ 0#28 ∨ (v.extractLsb' 0 4).toNat = 0 ∨ 7 ≤ (v.extractLsb' 0 4).toNat) ∧
        nextMeets (step s) (fun t => t.errcode == some .illegalCommand) = true) := by decide +kernel

/-- Idle states on both sides of each check. -/
theorem witness_IssueAcceptsOrReportsTheFirstError :
    (base.eng = .idle ∧ base.schedValid = false ∧ base.tlen = 128#32 ∧ base.msgLen.toNat = 0) ∧
    (expanded.eng = .idle ∧ expanded.schedValid = true) ∧
    (let s := { base with tlen := 129#32 }
     s.eng = .idle ∧ 128 < s.tlen.toNat) ∧
    (let s := { base with msgLen := 16#32 }
     s.eng = .idle ∧ s.tlen.toNat ≤ 128 ∧ s.msgLen.toNat = s.cap.bytes) ∧
    (let s := { base with msgLen := 17#32 }
     s.eng = .idle ∧ s.tlen.toNat ≤ 128 ∧ s.cap.bytes + 1 = s.msgLen.toNat) := by decide +kernel

theorem witness_OtherCommandWhileBusyIsDropped :
    (running .cmac base).eng = .busy .cmac ∧ Instr.cmac ≠ Instr.clear := by decide

/-- A busy state for each of the completion statements. -/
theorem witness_completions : ∀ i ∈ [Instr.expand, .derive, .encrypt, .cmac, .trunc, .clear],
    (running i expanded).eng = .busy i ∧ nextMeets (exec i (running i expanded)) (fun t => t.eng == .idle) = true := by
  decide +kernel

theorem witness_ExpandCompletesWithTheSchedule : base.eng = .idle ∧ (running .expand keyed).eng = .busy .expand :=
  ⟨rfl, rfl⟩
theorem witness_DeriveCompletesWithTheSubkeys : (base.eng = .idle ∧ base.schedValid = false) ∧
    (expanded.eng = .idle ∧ expanded.schedValid = true) ∧ (running .derive expanded).eng = .busy .derive :=
  ⟨⟨rfl, rfl⟩, ⟨rfl, rfl⟩, rfl⟩
theorem witness_EncryptCompletesWithTheCipherBlock : (base.eng = .idle ∧ base.schedValid = false) ∧
    (expanded.eng = .idle ∧ expanded.schedValid = true) ∧ (running .encrypt expanded).eng = .busy .encrypt :=
  ⟨⟨rfl, rfl⟩, ⟨rfl, rfl⟩, rfl⟩
/-- The least TLEN that fails; the least MSG_LEN that fails and the greatest that passes, with the greatest TLEN. -/
theorem witness_CmacCompletesWithTheTag : (base.eng = .idle ∧ 128 < (129#32).toNat) ∧
    ((128#32).toNat ≤ 128 ∧ base.tlen = 128#32 ∧ base.cap.bytes < (17#32).toNat ∧ (16#32).toNat ≤ base.cap.bytes) ∧
    (running .cmac keyed).eng = .busy .cmac := by decide
theorem witness_TruncCompletesWithTheTruncatedTag : (base.eng = .idle ∧ 128 < (129#32).toNat ∧ base.tlen.toNat ≤ 128) ∧
    (running .trunc base).eng = .busy .trunc := by decide
theorem witness_ClearCompletesWithKeyMaterialZeroed : base.eng = .idle ∧ (running .clear expanded).eng = .busy .clear :=
  ⟨rfl, rfl⟩

/-- Every command answers a next state, at its issue and at its completion. -/
theorem witness_CommandsWriteOnlyTheirResults : ∀ i ∈ [Instr.expand, .derive, .encrypt, .cmac, .trunc, .clear],
    (∃ t, exec i base = .next t) ∧ ∃ t, exec i (running i expanded) = .next t := by
  intro i _
  cases i <;> exact ⟨⟨_, rfl⟩, _, rfl⟩

theorem witness_ReadsFollowTheRegisterMap : 4 * 0 < base.cap.bytes ∧ 4 * 3 < base.cap.bytes ∧ ¬ 4 * 4 < base.cap.bytes := by
  decide

/-- An empty list of reads, and two reads of one offset. -/
theorem witness_ReadsChangeNoState :
    base.port.pending = [].map Event.read ++ [] ∧
    (withEvents base [.read 0x0004#16, .read 0x0004#16, .complete]).port.pending =
      [0x0004#16, 0x0004#16].map Event.read ++ [.complete] := by decide

theorem witness_BusyWriteOnlySetsWerr :
    let s := withEvents (running .expand base) [.write 0xFFFF#16 7#32]
    s.eng = .busy .expand ∧ s.port.pending = .write 0xFFFF#16 7#32 :: [] := by decide

theorem witness_BusyCoreKeepsItsStateUntilCompletion :
    let es := [Event.write 0x0020#16 1#32, .read 0x0004#16]
    let s := withEvents (running .cmac keyed) (es ++ [.complete])
    s.eng = .busy .cmac ∧ (∀ e ∈ es, isHostEvent e = true) ∧ s.port.pending = es ++ [.complete] := by decide

/-- Both ends of every range, just outside the message RAM, and the offsets that ignore bits [1:0]. -/
theorem witness_ReservedAndReadOnlyOffsetsIgnoreWrites :
    (∀ n ∈ [0x0018, 0x001F, 0x0080, 0x7FFF, 0x8010, 0xFFFF],
      let a := (BitVec.ofNat 16 n &&& 0xFFFC#16).toNat
      (0x0018 ≤ a ∧ a < 0x0020) ∨ (0x0080 ≤ a ∧ a < 0x8000) ∨ 0x8000 + base.cap.bytes ≤ a) ∧
    (∀ n ∈ [0x0004, 0x0013, 0x0014, 0x0040, 0x007F],
      let a := (BitVec.ofNat 16 n &&& 0xFFFC#16).toNat
      a = 0x0004 ∨ a = 0x0010 ∨ a = 0x0014 ∨ (0x0040 ≤ a ∧ a < 0x0080)) ∧
    (∀ n ∈ [0x0000, 0x0003, 0x0020, 0x002F],
      let a := (BitVec.ofNat 16 n &&& 0xFFFC#16).toNat
      a = 0x0000 ∨ (0x0020 ≤ a ∧ a < 0x0030)) ∧
    (withEvents base [.write 0x0004#16 1#32]).eng = .idle ∧
    (withEvents (running .expand base) [.write 0x0004#16 1#32]).eng = .busy .expand ∧
    (withEvents base [.write 0x0004#16 1#32]).port.pending = .write 0x0004#16 1#32 :: [] ∧
    (withEvents (running .expand base) [.write 0x0004#16 1#32]).port.pending = .write 0x0004#16 1#32 :: [] := by
  decide +kernel

theorem witness_KeyWriteStoresAndInvalidates : ∀ j ∈ [0, 3],
    let s := withEvents expanded [.write (BitVec.ofNat 16 (0x0020 + 4 * j)) 0x09cf4f3c#32]
    j < 4 ∧ s.eng = .idle ∧ s.port.pending = .write (BitVec.ofNat 16 (0x0020 + 4 * j)) 0x09cf4f3c#32 :: [] := by
  decide

theorem witness_IdleWritesStoreTlenMsgLenAndDin :
    base.eng = .idle ∧
    (withEvents base [.write 0x0008#16 200#32]).port.pending = .write 0x0008#16 200#32 :: [] ∧
    (withEvents base [.write 0x000C#16 0#32]).port.pending = .write 0x000C#16 0#32 :: [] ∧
    ∀ j ∈ [0, 3], j < 4 ∧ (withEvents base [.write (BitVec.ofNat 16 (0x0030 + 4 * j)) 1#32]).port.pending =
      .write (BitVec.ofNat 16 (0x0030 + 4 * j)) 1#32 :: [] := by decide

/-- The first and the last word of the least and of the greatest message RAM. -/
theorem witness_MessageWriteStoresFourBytes :
    (∀ j ∈ [0, 3], 4 * j < base.cap.bytes ∧
      (withEvents base [.write (BitVec.ofNat 16 (0x8000 + 4 * j)) 1#32]).eng = .idle ∧
      (withEvents base [.write (BitVec.ofNat 16 (0x8000 + 4 * j)) 1#32]).port.pending =
        .write (BitVec.ofNat 16 (0x8000 + 4 * j)) 1#32 :: []) ∧
    4 * 8191 < (Cap.mk 8188).bytes ∧ ¬ 4 * 8192 < (Cap.mk 8188).bytes := by decide +kernel

theorem witness_HostTransactionsKeepTheResults :
    (isHostEvent (.write 0x0000#16 1#32) = true ∧
      (withEvents base [.write 0x0000#16 1#32]).port.pending = .write 0x0000#16 1#32 :: [] ∧
      nextMeets (step (withEvents base [.write 0x0000#16 1#32])) (fun _ => true) = true) ∧
    (isHostEvent (.read 0x0050#16) = true ∧
      (withEvents base [.read 0x0050#16]).port.pending = .read 0x0050#16 :: [] ∧
      nextMeets (step (withEvents base [.read 0x0050#16])) (fun _ => true) = true) :=
  ⟨⟨rfl, rfl, by decide +kernel⟩, rfl, rfl, by decide +kernel⟩

theorem witness_ResetLeavesTheTabledState :
    (withEvents (running .cmac keyed) [.reset]).port.pending = .reset :: [] := rfl

theorem witness_ExpandFollowsTheWordRecurrence : 4 ≤ 4 ∧ 4 < 44 ∧ 4 % 4 = 0 ∧ 4 ≤ 43 ∧ 43 < 44 ∧ 43 % 4 ≠ 0 := by decide

theorem witness_AddRoundKeyUsesSixteenScheduleBytes : 0 ≤ 10 ∧ 10 ≤ 10 ∧ 15 < 16 ∧ 16 * 10 + 15 < 176 := by decide

/-- A complete message of one block; the empty message and a message one byte short of a block. -/
theorem witness_LastBlockIsFormattedByLength :
    (0 < (plain 16).length ∧ (plain 16).length % 16 = 0) ∧
    ¬ (0 < (plain 0).length ∧ (plain 0).length % 16 = 0) ∧
    ¬ (0 < (plain 15).length ∧ (plain 15).length % 16 = 0) := by decide

theorem witness_ChainAbsorbsBlocksInOrder : 1 ≤ 1 ∧ 16 * 0 + 16 ≤ (plain 16).length := by decide

theorem witness_TruncateKeepsTheTopBits : 0 ≤ 128 ∧ 128 ≤ 128 := by decide

theorem witness_TruncationIsMonotone : 53 ≤ 128 ∧ 128 ≤ 128 ∧ 0 ≤ 128 := by decide

theorem witness_CommandResultIsFixedAtIssue : ∀ i ∈ [Instr.expand, .derive, .encrypt, .cmac, .trunc, .clear],
    let es := [Event.write 0x0020#16 0#32, .read 0x0004#16]
    let s := withEvents expanded (.write 0x0000#16 (encode i) :: (es ++ .complete :: []))
    s.eng = .idle ∧ issueCheck i s = none ∧ (∀ e ∈ es, isHostEvent e = true) ∧
      s.port.pending = .write 0x0000#16 (encode i) :: (es ++ .complete :: []) := by decide +kernel

/-- TLEN and MSG_LEN at their greatest accepted values, with a poll between the completion and the reads of TAG. -/
theorem witness_CmacTagReachesTheHost :
    let es := [Event.write 0x0008#16 0#32, .read 0x0004#16]
    let offs := [0x0004#16, 0x0050#16, 0x0054#16, 0x0058#16, 0x005C#16]
    let s := withEvents { keyed with msgLen := 16#32 }
      (.write 0x0000#16 0x00000004#32 :: (es ++ .complete :: (offs.map .read ++ [])))
    s.eng = .idle ∧ s.tlen.toNat ≤ 128 ∧ s.msgLen.toNat = s.cap.bytes ∧ (∀ e ∈ es, isHostEvent e = true) ∧
      s.port.pending = .write 0x0000#16 0x00000004#32 :: (es ++ .complete :: (offs.map .read ++ [])) := by
  decide +kernel

theorem witness_TruncAfterFullCmacEqualsShortCmac :
    (running .cmac keyed).eng = .busy .cmac ∧ (running .cmac keyed).tlen = 128#32 ∧ (53#32).toNat ≤ 128 := by decide

/-- Two memories that differ at byte MSG_LEN and agree below it. -/
theorem witness_CmacIgnoresBytesPastTheMessage :
    let s := running .cmac { keyed with msgLen := 1#32, msg := [(0, 0x61#8), (1, 0x62#8)] }
    let m : Memory := [(0, 0x61#8), (1, 0x63#8)]
    s.eng = .busy .cmac ∧ (∀ a < s.msgLen.toNat, msgByte { s with msg := m } a = msgByte s a) ∧ m ≠ s.msg := by
  decide

theorem witness_KeyAndScheduleAreNotReadable :
    let es := [Event.write 0x0020#16 1#32, .read 0x0020#16]
    let s := withEvents expanded es
    s.eng = .idle ∧ (∀ e ∈ es, isHostEventOffCmd e = true) ∧ s.port.pending = es ++ [] := by decide +kernel

/-- The three events, each on a state with both valid bits set. -/
theorem witness_OnlyThreeEventsInvalidateTheCache :
    ∀ s ∈ [withEvents expandedAndDerived [.reset], withEvents expandedAndDerived [.write 0x0020#16 0#32],
        withEvents expandedAndDerived [.write 0x002F#16 0#32],
        withEvents (running .clear expandedAndDerived) [.complete], running .clear expandedAndDerived],
      s.schedValid = true ∧ s.subkeyValid = true ∧
        nextMeets (step s) (fun t => !t.schedValid && !t.subkeyValid) = true := by decide +kernel

/-- The first and the last KEY word, with nothing and with a read of STATUS (P2) and a KEY write between. -/
theorem witness_StaleScheduleIsNeverUsed : ∀ i ∈ [Instr.encrypt, .derive], ∀ j ∈ [0, 3],
    ∀ es ∈ [[], [Event.read 0x0004#16, .write 0x0020#16 1#32]],
      let all := Event.write (BitVec.ofNat 16 (0x0020 + 4 * j)) 0x09cf4f3c#32 :: (es ++ [.write 0x0000#16 (encode i)])
      (i = .encrypt ∨ i = .derive) ∧ j < 4 ∧ (withEvents expanded all).eng = .idle ∧
        (∀ e ∈ es, isHostEventOffCmd e = true) ∧ (withEvents expanded all).port.pending = all := by decide +kernel

/-- A state of the invariant in which ENCRYPT runs. -/
theorem witness_StaleScheduleIsNeverUsed_running :
    MachineInv (running .encrypt expanded) ∧ (running .encrypt expanded).eng = .busy .encrypt := by
  refine ⟨⟨?_, fun op h => ?_, ⟨by decide, by decide⟩, ?_⟩, rfl⟩
  · simp [CacheInv, running, expanded, keyed, base, State.reset]
  · cases h; exact ⟨rfl, rfl, rfl⟩
  · simp [ErrcodeInv, running, expanded, keyed, base, State.reset]

theorem witness_BusyCoreBecomesIdle : (running .encrypt expanded).eng = .busy .encrypt := rfl

/-- A write while busy sets WERR; an issue and a reset clear it. -/
theorem witness_WerrIsStickyUntilIssueOrReset :
    ((withEvents (running .cmac keyed) [.write 0xFFFF#16 0#32]).eng = .busy .cmac ∧
      (withEvents (running .cmac keyed) [.write 0xFFFF#16 0#32]).port.pending = .write 0xFFFF#16 0#32 :: []) ∧
    (∀ e ∈ [Event.reset, .write 0x0003#16 0#32, .write 0x0000#16 1#32],
      nextMeets (step (withEvents { base with werr := true } [e])) (fun t => !t.werr) = true) := by decide

theorem witness_NoErrorArisesWhileBusy : (running .cmac keyed).eng = .busy .cmac ∧
    (∃ t, step (running .cmac keyed) = .next t) ∧
    nextMeets (step (withEvents (running .cmac keyed) [.reset])) (fun t => t.errcode == none) = true :=
  ⟨rfl, ⟨_, rfl⟩, by decide⟩

/-- Steps that are no reset and no completion of CLEAR, one that changes each register. -/
theorem witness_EachResultRegisterHasTheseWriters :
    nextMeets (step (withEvents base [.write 0x0020#16 1#32])) (fun t => t.key != base.key) = true ∧
    nextMeets (step (running .encrypt expanded)) (fun t => t.dout != expanded.dout) = true ∧
    nextMeets (step (running .cmac keyed)) (fun t => t.tag != keyed.tag && t.k1 != keyed.k1) = true ∧
    nextMeets (step (running .trunc { base with tlen := 0#32, tag := 1#128 })) (fun t => t.tag != 1#128) = true ∧
    nextMeets (step (running .derive expanded)) (fun t => t.k1 != expanded.k1 && t.k2 != expanded.k2) = true := by
  decide +kernel

/-- TLEN at its least and its greatest value. -/
theorem witness_TagHasNoBitsPastTlen : (∀ i ∈ [Instr.cmac, .trunc],
      (i = .cmac ∨ i = .trunc) ∧ (running i base).eng = .busy i ∧ (running i base).tlen.toNat ≤ 128) ∧
    (running .trunc { base with tlen := 0#32 }).tlen.toNat ≤ 128 := by decide

/-- A run from reset that loads a key word and expands it. -/
theorem witness_ValidBitsVouchInEveryReachableState :
    nextMeets (runSteps 3 { State.reset with port :=
      ⟨[.write 0x0020#16 0x2b7e1516#32, .write 0x0000#16 0x00000001#32, .complete], []⟩ })
      (fun t => t.schedValid) = true := by decide +kernel

theorem witness_InvalidKeyLengthIsNeverRaised :
    ErrcodeInv base ∧ nextMeets (step (withEvents base [.write 0x0000#16 0#32])) (fun _ => true) = true :=
  ⟨by unfold ErrcodeInv; decide, by decide +kernel⟩

theorem witness_StepKeepsTheMessageRamCanonical :
    (let s := withEvents { base with msg := [(0, 0x61#8), (15, 0x00#8)] } [.write 0x8004#16 1#32]
     Memory.wf s.msg ∧ ∀ c ∈ s.msg, c.1 < s.cap.bytes) ∧
    nextMeets (step (withEvents { base with msg := [(0, 0x61#8), (15, 0x00#8)] } [.write 0x8004#16 1#32])) (fun _ => true) = true :=
  ⟨by decide, by decide +kernel⟩

/-- K is loaded and a CMAC has completed: both valid bits are set and one message byte is written. -/
def cached : State :=
  { expanded with k1 := (derive (expand keyK)).1, k2 := (derive (expand keyK)).2, subkeyValid := true,
                  msg := [(0, 0x61#8)] }

/-- The invariant holds in an idle state with both valid bits set, with a KEY write to come, and it steps. -/
theorem witness_StepKeepsTheInvariant :
    MachineInv (withEvents cached [.write 0x002C#16 0#32]) ∧
      nextMeets (step (withEvents cached [.write 0x002C#16 0#32])) (fun _ => true) = true := by
  refine ⟨⟨?_, fun op h => (nomatch h), ⟨by decide, by decide⟩, ?_⟩, by decide +kernel⟩
  · simp [CacheInv, withEvents, cached, expanded, keyed]
  · simp [ErrcodeInv, withEvents, cached, expanded, keyed, base, State.reset]

/-- It holds while CMAC runs. -/
theorem witness_StepKeepsTheInvariant_busy :
    MachineInv (running .cmac keyed) ∧ nextMeets (step (running .cmac keyed)) (fun _ => true) = true := by
  refine ⟨⟨?_, fun op h => ?_, ⟨by decide, by decide⟩, ?_⟩, by decide +kernel⟩
  · simp [CacheInv, running, keyed, base, State.reset]
  · cases h; exact ⟨by decide, rfl, rfl⟩
  · simp [ErrcodeInv, running, keyed, base, State.reset]

end Sys2Proof.Tests
end

/-! PROOFS. What one step can do, said as a relation; what each kind of step leaves unchanged; and properties that hold
along a run (20_memory.md R68, R69, R73; 30_encoding.md R91, R95, R99; 70_reset_and_hazards.md R320). -/

namespace Sys2Proof.Machine

/-! ### Events and offsets -/

theorem step_write_idle {s : State} {off : Offset} {v : Word} {rest : List Event} (he : s.eng = .idle)
    (hp : s.port.pending = .write off v :: rest) :
    step s = idleWrite v (withPending s rest) (targetOf s.cap.bytes off) := by
  rw [step_cons hp]; exact busWrite_idle (s := withPending s rest) he off v

theorem step_write_busy {s : State} {op : Instr} {off : Offset} {v : Word} {rest : List Event}
    (he : s.eng = .busy op) (hp : s.port.pending = .write off v :: rest) :
    step s = .next (dropWrite (withPending s rest)) := by
  rw [step_cons hp]; exact busWrite_busy (s := withPending s rest) he off v

/-- What stands at an aligned offset that is written out as a number (R22). -/
theorem targetOf_ofNat {cap a : Nat} {tg : Target} (h4 : a % 4 = 0) (ha : a < 0x10000) (h : StandsAt cap a tg) :
    targetOf cap (BitVec.ofNat 16 a) = tg :=
  targetOf_eq (by rwa [alignedOffset_ofNat h4 ha])

theorem targetOf_key_bounds {cap : Nat} {off : Offset} {j : Nat} (h : targetOf cap off = .key j) :
    0x0020 ≤ alignedOffset off ∧ alignedOffset off < 0x0030 := by
  have hat := targetOf_standsAt cap off
  rw [h] at hat
  obtain ⟨hlo, hhi, -⟩ := hat
  exact ⟨hlo, hhi⟩

/-- Only the aligned offset 0 is CMD (R22): the converse of `targetOf_of_cmd`. -/
theorem aligned_zero_of_targetOf_cmd {cap : Nat} {off : Offset} (h : targetOf cap off = .cmd) :
    off &&& 0xFFFC#16 = 0#16 := by
  have hat := targetOf_standsAt cap off
  rw [h] at hat
  exact BitVec.eq_of_toNat_eq hat

/-! ### One step as a relation -/

/-- The core's own step comes next, before the events `rest`: a completion is pending, or nothing is (R99, R100). -/
def CoreTurn (s : State) (rest : List Event) : Prop :=
  (s.port.pending = [] ∧ rest = []) ∨ s.port.pending = .complete :: rest

/-- What a step from s can be (R73): nothing for an idle core to do, the completion of the running command, a reset, a
read, a dropped write, or an idle write. -/
inductive Transition (s : State) : State → Prop
  | nothing {rest : List Event} : s.eng = .idle → CoreTurn s rest → Transition s (withPending s rest)
  | completion {op : Instr} {rest : List Event} : s.eng = .busy op → CoreTurn s rest →
      Transition s (finish (resultsOf op (withPending s rest)))
  | reset {rest : List Event} : s.port.pending = .reset :: rest → Transition s (applyReset (withPending s rest))
  | read {off : Offset} {rest : List Event} : s.port.pending = .read off :: rest →
      Transition s { s with port := ⟨rest, busRead s off :: s.port.returned⟩ }
  | dropped {op : Instr} {off : Offset} {v : Word} {rest : List Event} : s.eng = .busy op →
      s.port.pending = .write off v :: rest → Transition s (dropWrite (withPending s rest))
  | written {off : Offset} {v : Word} {rest : List Event} {t : State} : s.eng = .idle →
      s.port.pending = .write off v :: rest →
      idleWrite v (withPending s rest) (targetOf s.cap.bytes off) = .next t → Transition s t

theorem step_read {s : State} {off : Offset} {rest : List Event} (hp : s.port.pending = .read off :: rest) :
    step s = .next { s with port := ⟨rest, busRead s off :: s.port.returned⟩ } := by
  rw [step_cons hp, ← busRead_withPort s ⟨rest, s.port.returned⟩ off]; rfl

theorem transition_of_coreStep {s t : State} {rest : List Event} (hp : CoreTurn s rest)
    (h : coreStep (withPending s rest) = .next t) : Transition s t := by
  cases he : s.eng with
  | idle => rw [coreStep_idle (s := withPending s rest) he] at h; cases h; exact .nothing he hp
  | busy op => rw [coreStep_busy (s := withPending s rest) he] at h; cases h; exact .completion he hp

theorem transition_of_step {s t : State} (h : step s = .next t) : Transition s t := by
  cases hp : s.port.pending with
  | nil =>
    have hself : withPending s [] = s := by rw [← hp, withPending_self]
    exact transition_of_coreStep (.inl ⟨hp, rfl⟩) (by rwa [hself, ← step_nil hp])
  | cons e rest =>
    cases e with
    | complete => rw [step_cons hp] at h; exact transition_of_coreStep (.inr hp) h
    | reset => rw [step_cons hp] at h; cases h; exact .reset hp
    | read off => rw [step_read hp] at h; cases h; exact .read hp
    | write off v =>
      cases he : s.eng with
      | idle => rw [step_write_idle he hp] at h; exact .written he hp h
      | busy op => rw [step_write_busy he hp] at h; cases h; exact .dropped he hp

/-! ### Frames -/

/-- An issue changes ENG and the report of STATUS and nothing else (R95, R97, R290). -/
theorem issue_eq_report (i : Instr) (s : State) :
    ∃ eng done err, issue i s = { s with eng := eng, done := done, werr := false, errcode := err } := by
  rcases issue_cases i s with ⟨e, -, h⟩ | ⟨-, h⟩
  · exact ⟨s.eng, true, some e, h⟩
  · exact ⟨.busy i, false, none, h⟩

@[simp] theorem resultsOf_werr (op : Instr) (s : State) : (resultsOf op s).werr = s.werr := by cases op <;> rfl
@[simp] theorem resultsOf_errcode (op : Instr) (s : State) : (resultsOf op s).errcode = s.errcode := by
  cases op <;> rfl
@[simp] theorem resultsOf_msg (op : Instr) (s : State) : (resultsOf op s).msg = s.msg := by cases op <;> rfl
@[simp] theorem resultsOf_cap (op : Instr) (s : State) : (resultsOf op s).cap = s.cap := by cases op <;> rfl

/-- What the results of command `op` leave as it was (R91). -/
structure ResultsFrame (op : Instr) (s t : State) : Prop where
  key : op ≠ .clear → t.key = s.key
  dout : op ≠ .encrypt → op ≠ .clear → t.dout = s.dout
  tag : op ≠ .cmac → op ≠ .trunc → op ≠ .clear → t.tag = s.tag
  subkeys : op ≠ .derive → op ≠ .cmac → op ≠ .clear → t.k1 = s.k1 ∧ t.k2 = s.k2
  schedValid : op ≠ .clear → s.schedValid = true → t.schedValid = true
  subkeyValid : op ≠ .clear → s.subkeyValid = true → t.subkeyValid = true

theorem resultsOf_frame (op : Instr) (s : State) : ResultsFrame op s (resultsOf op s) := by
  cases op <;> constructor <;>
    simp [resultsOf, expandEffect, deriveEffect, encryptEffect, cmacEffect, truncEffect, clearEffect]

/-- What an idle write to target `tg` leaves as it was (R69, R70). -/
structure IdleWriteFrame (tg : Target) (s t : State) : Prop where
  dout : t.dout = s.dout
  tag : t.tag = s.tag
  k1 : t.k1 = s.k1
  k2 : t.k2 = s.k2
  sched : t.sched = s.sched
  werr : tg ≠ .cmd → t.werr = s.werr
  key : (∀ j, tg ≠ .key j) → t.key = s.key
  schedValid : (∀ j, tg ≠ .key j) → t.schedValid = s.schedValid
  subkeyValid : (∀ j, tg ≠ .key j) → t.subkeyValid = s.subkeyValid

theorem idleWrite_frame {v : Word} {s t : State} {rest : List Event} {tg : Target} (he : s.eng = .idle)
    (h : idleWrite v (withPending s rest) tg = .next t) : IdleWriteFrame tg s t := by
  rcases idleWrite_cases v _ t tg h with ⟨i, rfl, -, hi⟩ | ⟨rfl, -, rfl⟩ | ⟨-, rfl⟩ | ⟨-, rfl⟩ | ⟨j, rfl, rfl⟩ |
    ⟨j, -, rfl⟩ | ⟨j, -, rfl⟩ | rfl
  case inl =>
    rw [exec_idle i (s := withPending s rest) he] at hi
    obtain ⟨eng, done, err, hr⟩ := issue_eq_report i (withPending s rest)
    rw [hr] at hi
    cases hi
    constructor <;> simp
  all_goals constructor <;> simp [issueIllegal]

/-! ### Along a run -/

/-- What every step keeps, every run keeps. -/
theorem runSteps_preserves {P : State → Prop} (hstep : ∀ s t, P s → step s = .next t → P t) {k : Nat} {s t : State}
    (hs : P s) (h : runSteps k s = .next t) : P t := by
  induction k generalizing s with
  | zero => cases h; exact hs
  | succ k ih =>
    rw [runSteps] at h
    split at h
    · exact ih (hstep _ _ hs ‹_›) h
    · cases h
    · cases h

end Sys2Proof.Machine

/-! PROOFS. The machine invariant: it holds at reset and every step keeps it, so it holds of every reachable state
(10_state.md R46, R48; 20_memory.md R64, R68; 60_exceptions.md R281). -/

namespace Sys2Proof.Machine

/-! ### The cache and the running command -/

theorem engineInv_of_idle {s : State} (h : s.eng = .idle) : EngineInv s := by
  intro op hop
  rw [h] at hop
  cases hop

/-- An accepted command has passed its checks and starts with a clear report (R95, R97). -/
theorem engineInv_issue (i : Instr) {s : State} (he : s.eng = .idle) : EngineInv (issue i s) := by
  rcases issue_cases i s with ⟨e, -, h⟩ | ⟨hcheck, h⟩
  · rw [h]; exact engineInv_of_idle he
  · rw [h]
    rintro op hop
    cases hop
    refine ⟨?_, rfl, rfl⟩
    rw [← hcheck]
    cases i <;> rfl

theorem cacheInv_issue (i : Instr) {s : State} (h : CacheInv s) : CacheInv (issue i s) := by
  obtain ⟨eng, done, err, hr⟩ := issue_eq_report i s
  rw [hr]; exact h

/-- A completion leaves valid bits that vouch (R46). DERIVE is the case that needs the issue check: it ran with
SCHED_VALID set. -/
theorem cacheInv_resultsOf {op : Instr} {s : State} (hrun : s.eng = .busy op) (hc : CacheInv s) (he : EngineInv s) :
    CacheInv (resultsOf op s) := by
  obtain ⟨hsched, hsub⟩ := hc
  cases op with
  | expand =>
    refine ⟨fun _ => rfl, fun hv => ⟨rfl, ?_⟩⟩
    obtain ⟨hvalid, hk⟩ := hsub hv
    rw [hsched hvalid] at hk
    exact hk
  | derive =>
    obtain ⟨hcheck, -, -⟩ := he .derive hrun
    have hvalid : s.schedValid = true := by simpa [issueCheck, checkSched] using hcheck
    exact ⟨hsched, fun _ => ⟨hvalid, rfl⟩⟩
  | encrypt => exact ⟨hsched, hsub⟩
  | cmac => exact ⟨fun _ => rfl, fun _ => ⟨rfl, rfl⟩⟩
  | trunc => exact ⟨hsched, hsub⟩
  | clear => exact ⟨nofun, nofun⟩

/-- The valid bits are kept only together with the checks of the running command. -/
theorem cacheEngineInv_step {s t : State} (h : CacheInv s ∧ EngineInv s) (hs : step s = .next t) :
    CacheInv t ∧ EngineInv t := by
  refine step_preserves (P := fun s => CacheInv s ∧ EngineInv s) hs ?port ?issue ?illegal ?tlen ?msgLen ?key ?din ?msg
    ?drop ?complete ?reset h
  case port => exact fun _ _ => id
  case issue => exact fun i _ he ⟨hc, _⟩ => ⟨cacheInv_issue i hc, engineInv_issue i he⟩
  case illegal => exact fun _ he ⟨hc, _⟩ => ⟨hc, engineInv_of_idle he⟩
  case tlen | msgLen | din => exact fun _ _ he ⟨hc, _⟩ => ⟨hc, engineInv_of_idle he⟩
  case key => exact fun _ _ he _ => ⟨⟨nofun, nofun⟩, engineInv_of_idle he⟩
  case msg => exact fun _ _ _ he _ ⟨hc, _⟩ => ⟨hc, engineInv_of_idle he⟩
  case drop => exact fun _ _ _ => id
  case complete => exact fun _ _ hrun ⟨hc, he⟩ => ⟨cacheInv_resultsOf hrun hc he, engineInv_of_idle rfl⟩
  case reset => exact fun _ _ => ⟨⟨nofun, nofun⟩, engineInv_of_idle rfl⟩

/-! ### The message RAM -/

/-- A word write inside the RAM keeps it canonical and inside the RAM (R64). -/
theorem memoryInv_memSetWord {s : State} {j : Nat} (v : Word) (hj : 4 * j + 3 < s.cap.bytes) (h : MemoryInv s) :
    MemoryInv { s with msg := memSetWord s.msg j v } := by
  obtain ⟨hwf, hlt⟩ := h
  refine ⟨memSetWord_wf hwf j v, fun c hc => ?_⟩
  rcases mem_memSetWord hc with ⟨-, hle⟩ | hold
  · exact lt_of_le_of_lt hle hj
  · exact hlt c hold

theorem memoryInv_step {s t : State} (h : MemoryInv s) (hs : step s = .next t) : MemoryInv t := by
  refine step_preserves hs ?port ?issue ?illegal ?tlen ?msgLen ?key ?din ?msg ?drop ?complete ?reset h
  case issue =>
    intro i s _ h
    obtain ⟨eng, done, err, hr⟩ := issue_eq_report i s
    rw [hr]; exact h
  case msg => exact fun _ _ v _ hj h => memoryInv_memSetWord v hj h
  case complete =>
    intro op s _ h
    simpa only [MemoryInv, finish_msg, finish_cap, resultsOf_msg, resultsOf_cap] using h
  case port | illegal => exact fun _ _ => id
  case tlen | msgLen | key | din | drop => exact fun _ _ _ => id
  case reset => exact fun _ => id

/-! ### ERRCODE -/

theorem errcodeInv_issue (i : Instr) (s : State) : ErrcodeInv (issue i s) := by
  rcases issue_cases i s with ⟨e, hcheck, h⟩ | ⟨-, h⟩
  · rw [h, ErrcodeInv, raiseError_errcode, ← hcheck]
    exact issueCheck_ne_invalidKeyLength i s
  · rw [h]; exact nofun

theorem errcodeInv_step {s t : State} (h : ErrcodeInv s) (hs : step s = .next t) : ErrcodeInv t := by
  refine step_preserves hs ?port ?issue ?illegal ?tlen ?msgLen ?key ?din ?msg ?drop ?complete ?reset h
  case issue => exact fun i s _ _ => errcodeInv_issue i s
  case illegal => exact fun _ _ _ => nofun
  case reset => exact fun _ _ => nofun
  case complete =>
    intro op s _ h
    simpa only [ErrcodeInv, finish_errcode, resultsOf_errcode] using h
  case port => exact fun _ _ => id
  case tlen | msgLen | key | din | drop => exact fun _ _ _ => id
  case msg => exact fun _ _ _ _ _ => id

/-! ### The invariant of the machine -/

theorem machineInv_step {s t : State} (h : MachineInv s) (hs : step s = .next t) : MachineInv t := by
  obtain ⟨hcache, hengine, hmemory, herrcode⟩ := h
  obtain ⟨hcache', hengine'⟩ := cacheEngineInv_step ⟨hcache, hengine⟩ hs
  exact ⟨hcache', hengine', memoryInv_step hmemory hs, errcodeInv_step herrcode hs⟩

/-- The invariant holds at power-on whatever events are to come: it does not speak of the port. -/
theorem machineInv_reset (p : Port) : MachineInv { State.reset with port := p } where
  cache := ⟨nofun, nofun⟩
  engine := engineInv_of_idle rfl
  memory := ⟨List.Pairwise.nil, nofun⟩
  errcode := nofun

/-- Settles O57, part by part: the cache with the running command's checks, the message RAM, ERRCODE. -/
theorem stepKeepsTheInvariant : Obligations.StepKeepsTheInvariant := by
  unfold Obligations.StepKeepsTheInvariant
  exact fun _ _ => machineInv_step

/-- Settles O56: at reset both valid bits are 0, no command runs and no message byte is listed. -/
theorem resetMeetsTheInvariant : Obligations.ResetMeetsTheInvariant := by
  unfold Obligations.ResetMeetsTheInvariant
  exact machineInv_reset ⟨[], []⟩

/-- Settles O58: the invariant holds at reset and is kept along the run, and its cache part is the claim. -/
theorem validBitsVouchInEveryReachableState : Obligations.ValidBitsVouchInEveryReachableState := by
  unfold Obligations.ValidBitsVouchInEveryReachableState
  intro es k t hrun
  have hinv : MachineInv t := runSteps_preserves (fun _ _ => machineInv_step) (machineInv_reset ⟨es, []⟩) hrun
  obtain ⟨hsched, hsub⟩ := hinv.cache
  refine ⟨hsched, fun hv => ?_⟩
  obtain ⟨hvalid, hk⟩ := hsub hv
  exact ⟨hvalid, congrArg Prod.fst hk, congrArg Prod.snd hk⟩

end Sys2Proof.Machine

/-! PROOFS. Who writes what: each change of a result register, of a valid bit or of WERR is traced to the kinds of step
that make it (10_state.md R27 to R29, R35 to R42; 20_memory.md R68, R70, R77). -/

namespace Sys2Proof.Machine

/-- Settles O27: a host transaction is a read, a dropped write or an idle write, and none of them writes a result. -/
theorem hostTransactionsKeepTheResults : Obligations.HostTransactionsKeepTheResults := by
  unfold Obligations.HostTransactionsKeepTheResults
  intro s t e rest he hp hs
  cases e with
  | complete | reset => simp [isHostEvent] at he
  | read off => rw [step_read hp] at hs; cases hs; simp
  | write off v =>
    cases heng : s.eng with
    | busy op => rw [step_write_busy heng hp] at hs; cases hs; simp
    | idle =>
      rw [step_write_idle heng hp] at hs
      have hframe := idleWrite_frame heng hs
      exact ⟨hframe.dout, hframe.tag, hframe.k1, hframe.k2, hframe.sched⟩

/-- An idle write that is no write to a KEY word leaves KEY and both valid bits. -/
theorem IdleWriteFrame.key_kept_or_bounds {cap : Nat} {off : Offset} {s t : State}
    (h : IdleWriteFrame (targetOf cap off) s t) :
    (t.key = s.key ∧ t.schedValid = s.schedValid ∧ t.subkeyValid = s.subkeyValid) ∨
      (0x0020 ≤ alignedOffset off ∧ alignedOffset off < 0x0030) := by
  by_cases hkey : ∃ j, targetOf cap off = .key j
  · obtain ⟨j, hj⟩ := hkey
    exact .inr (targetOf_key_bounds hj)
  · have hne : ∀ j, targetOf cap off ≠ .key j := not_exists.mp hkey
    exact .inl ⟨h.key hne, h.schedValid hne, h.subkeyValid hne⟩

/-- Settles O47, by the kinds of step: a reset, the completion of CLEAR and an idle write to a KEY word invalidate, and
every other step keeps a valid bit that is set. -/
theorem onlyThreeEventsInvalidateTheCache : Obligations.OnlyThreeEventsInvalidateTheCache := by
  unfold Obligations.OnlyThreeEventsInvalidateTheCache
  intro s t hs hcleared
  cases transition_of_step hs with
  | nothing | read | dropped => simp_all
  | reset hp => exact .inl ⟨_, hp⟩
  | @completion op rest hrun hturn =>
    by_cases hop : op = .clear
    · subst hop
      exact .inr (.inr ⟨hrun, hturn.imp And.left fun h => ⟨rest, h⟩⟩)
    · have hframe := resultsOf_frame op (withPending s rest)
      rcases hcleared with ⟨hset, hlost⟩ | ⟨hset, hlost⟩
      · exact absurd (hframe.schedValid hop hset) (Bool.eq_false_iff.mp hlost)
      · exact absurd (hframe.subkeyValid hop hset) (Bool.eq_false_iff.mp hlost)
  | written he hp hw =>
    rcases (idleWrite_frame he hw).key_kept_or_bounds with ⟨-, hsched, hsub⟩ | hbounds
    · simp_all
    · exact .inr (.inl ⟨he, _, _, _, hp, hbounds⟩)

/-- Settles O50: a busy write is a dropped write, and the kinds of step that clear WERR are a reset and an idle write
to CMD. -/
theorem werrIsStickyUntilIssueOrReset : Obligations.WerrIsStickyUntilIssueOrReset := by
  unfold Obligations.WerrIsStickyUntilIssueOrReset
  refine ⟨fun s op off v rest he hp => ⟨_, step_write_busy he hp, rfl⟩, fun s t hs hset hclear => ?_⟩
  cases transition_of_step hs with
  | nothing | read | completion | dropped => simp_all
  | reset hp => exact .inl ⟨_, hp⟩
  | @written off v rest _ he hp hw =>
    by_cases hcmd : targetOf s.cap.bytes off = .cmd
    · exact .inr ⟨he, off, v, rest, hp, aligned_zero_of_targetOf_cmd hcmd⟩
    · have hkept := (idleWrite_frame he hw).werr hcmd
      simp_all

/-- Settles O52: only an idle write to a KEY word and the running command's own results are left as writers. -/
theorem eachResultRegisterHasTheseWriters : Obligations.EachResultRegisterHasTheseWriters := by
  unfold Obligations.EachResultRegisterHasTheseWriters
  intro s t hs hreset hclear
  cases transition_of_step hs with
  | nothing | read | dropped => simp
  | reset hp => exact absurd hp (hreset _)
  | @completion op rest hrun hturn =>
    have hop : op ≠ .clear := fun h => hclear (h ▸ hrun)
    have hframe := resultsOf_frame op (withPending s rest)
    refine ⟨fun h => absurd (hframe.key hop) h, fun h => ?_, fun h => ?_, fun h => ?_⟩
    · by_contra hne
      exact h (hframe.dout (fun e => hne (e ▸ hrun)) hop)
    · by_contra hne
      exact h (hframe.tag (fun e => hne (.inl (e ▸ hrun))) (fun e => hne (.inr (e ▸ hrun))) hop)
    · by_contra hne
      obtain ⟨hk1, hk2⟩ := hframe.subkeys (fun e => hne (.inl (e ▸ hrun))) (fun e => hne (.inr (e ▸ hrun))) hop
      exact h.elim (· hk1) (· hk2)
  | written he hp hw =>
    have hframe := idleWrite_frame he hw
    refine ⟨fun h => ?_, fun h => absurd hframe.dout h, fun h => absurd hframe.tag h,
      fun h => absurd h (by simp [hframe.k1, hframe.k2])⟩
    rcases hframe.key_kept_or_bounds with ⟨hkey, -⟩ | hbounds
    · exact absurd hkey h
    · exact ⟨he, _, _, _, hp, hbounds⟩

end Sys2Proof.Machine

/-! PROOFS. What the host port shows and stores: the words of a block, STATUS, the register map, the idle writes of
TLEN, MSG_LEN, DIN and KEY, and the values of reset (10_state.md R22 to R48; 20_memory.md R60 to R69). -/

namespace Sys2Proof.Machine

/-! ### Words of a block -/

/-- Byte k of word j of a block is the block's byte 4j + k (R41). -/
theorem wordByte_blockWord (b : Block) {j k : Nat} (hj : j < 4) (hk : k < 4) :
    wordByte (blockWord b j) k = blockByte b (4 * j + k) := by
  apply BitVec.eq_of_getLsbD_eq
  intro i hi
  have hin : 8 * (3 - k) + i < 32 := by omega
  have hpos : 32 * (3 - j) + (8 * (3 - k) + i) = 8 * (15 - (4 * j + k)) + i := by omega
  simp only [wordByte, blockWord, blockByte, BitVec.getLsbD_extractLsb', hi, hin, hpos, decide_true, Bool.true_and]

/-- Settles O18: a block is its words, and each word its bytes. -/
theorem blockWordsPackBigEndian : Obligations.BlockWordsPackBigEndian := by
  unfold Obligations.BlockWordsPackBigEndian
  refine ⟨fun b => ⟨blockOfWords_blockWord b, fun j hj => ?_⟩, by decide⟩
  exact ⟨wordByte_blockWord b hj (k := 0) (by decide), wordByte_blockWord b hj (k := 1) (by decide),
    wordByte_blockWord b hj (k := 2) (by decide), wordByte_blockWord b hj (k := 3) (by decide)⟩

/-! ### Reads -/

/-- A read at an aligned offset that is written out as a number returns what the target standing there holds. -/
theorem busRead_ofNat {s : State} {a : Nat} {tg : Target} (h4 : a % 4 = 0) (ha : a < 0x10000)
    (h : StandsAt s.cap.bytes a tg) : busRead s (BitVec.ofNat 16 a) = readTarget s tg := by
  rw [busRead, targetOf_ofNat h4 ha h]

/-- Byte k of message word j is message byte 4j + k (R64). -/
theorem wordByte_msgWord (s : State) (j : Nat) {k : Nat} (hk : k < 4) :
    wordByte (msgWord s j) k = msgByte s (4 * j + k) := by
  rw [msgWord, wordByte_wordOfBytes _ _ _ _ hk]
  interval_cases k <;> rfl

/-- Byte k of what a read of word j of a block register returns, the register given by its target and its value. -/
theorem wordByte_busRead_block {s : State} {a j k : Nat} {tg : Target} {b : Block} (hj : j < 4) (hk : k < 4)
    (h4 : a % 4 = 0) (ha : a < 0x10000) (hat : StandsAt s.cap.bytes a tg) (hb : readTarget s tg = blockWord b j) :
    wordByte (busRead s (BitVec.ofNat 16 a)) k = blockByte b (4 * j + k) := by
  rw [busRead_ofNat h4 ha hat, hb, wordByte_blockWord b hj hk]

/-- Settles O17, target by target. -/
theorem readsFollowTheRegisterMap : Obligations.ReadsFollowTheRegisterMap := by
  unfold Obligations.ReadsFollowTheRegisterMap
  intro s
  refine ⟨busRead_ofNat (tg := .tlen) rfl (by decide) rfl, busRead_ofNat (tg := .msgLen) rfl (by decide) rfl, ?_,
    busRead_ofNat (tg := .id) rfl (by decide) rfl, fun j hj k hk => ?_, fun j hj k hk => ?_⟩
  · have hread := busRead_ofNat (s := s) (a := 0x0010) (tg := .cap) rfl (by decide) rfl
    have hcap := cap_bounds s.cap
    rw [hread, readTarget, BitVec.toNat_ofNat]
    omega
  · refine ⟨wordByte_busRead_block (tg := .din j) hj hk (by omega) (by omega) ?_ rfl,
      wordByte_busRead_block (tg := .dout j) hj hk (by omega) (by omega) ?_ rfl,
      wordByte_busRead_block (tg := .tag j) hj hk (by omega) (by omega) ?_ rfl,
      wordByte_busRead_block (tg := .k1 j) hj hk (by omega) (by omega) ?_ rfl,
      wordByte_busRead_block (tg := .k2 j) hj hk (by omega) (by omega) ?_ rfl⟩ <;>
    · simp only [StandsAt]; omega
  · have hcap := cap_bounds s.cap
    rw [busRead_ofNat (tg := .msg j) (by omega) (by omega) (by simp only [StandsAt]; omega)]
    exact wordByte_msgWord s j hk

/-! ### STATUS -/

theorem busyBit_eq_true_iff (s : State) : busyBit s = true ↔ ∃ op, s.eng = .busy op := by
  unfold busyBit
  cases s.eng <;> simp

/-- STATUS bit by bit: the low byte, and ERRCODE above it (R24). -/
theorem getLsbD_statusWord (s : State) (i : Nat) : (statusWord s).getLsbD i =
    if i < 8 then [busyBit s, s.done, s.schedValid, s.subkeyValid, s.werr, false, false, false].getD i false
    else (codeOf s.errcode).getLsbD (i - 8) := by
  -- The width as the concatenation has it, so that `getLsbD_append` applies.
  show BitVec.getLsbD (w := 20 + 4 + 3 + 1 + 1 + 1 + 1 + 1) (_ ++ _) i = _
  simp only [BitVec.getLsbD_append]
  by_cases hi : i < 8
  · interval_cases i <;> simp
  · obtain ⟨m, rfl⟩ := Nat.exists_eq_add_of_le' (not_lt.mp hi)
    by_cases hm : m < 4
    · simp [hm]
    · simp [hm, BitVec.getLsbD_of_ge _ _ (not_lt.mp hm)]

/-- Settles O16, from the bits of STATUS. -/
theorem statusWordShowsItsFields : Obligations.StatusWordShowsItsFields := by
  unfold Obligations.StatusWordShowsItsFields
  refine ⟨fun s => ?_, by decide⟩
  refine ⟨busRead_ofNat (tg := .status) rfl (by decide) rfl, ?_, getLsbD_statusWord s 1, getLsbD_statusWord s 2,
    getLsbD_statusWord s 3, getLsbD_statusWord s 4, ?_, ?_, ?_⟩
  · rw [← busyBit_eq_true_iff, getLsbD_statusWord]; rfl
  all_goals
    apply BitVec.eq_of_getLsbD_eq
    intro i hi
    rw [BitVec.getLsbD_extractLsb', getLsbD_statusWord]
  · interval_cases i <;> rfl
  · simp [hi]
  · rw [if_neg (by omega), BitVec.getLsbD_of_ge _ _ (by omega)]; simp

/-! ### Idle writes -/

/-- An idle write at an aligned offset that is written out as a number. -/
theorem step_write_idle_ofNat {s : State} {a : Nat} {v : Word} {rest : List Event} {tg : Target} (he : s.eng = .idle)
    (hp : s.port.pending = .write (BitVec.ofNat 16 a) v :: rest) (h4 : a % 4 = 0) (ha : a < 0x10000)
    (hat : StandsAt s.cap.bytes a tg) : step s = idleWrite v (withPending s rest) tg := by
  rw [step_write_idle he hp, targetOf_ofNat h4 ha hat]

/-- Settles O24: the offset is KEYj's, and the write replaces one word of KEY. -/
theorem keyWriteStoresAndInvalidates : Obligations.KeyWriteStoresAndInvalidates := by
  unfold Obligations.KeyWriteStoresAndInvalidates
  intro s j v rest hj he hp
  have hstep := step_write_idle_ofNat (tg := .key j) he hp (by omega) (by omega) (by simp only [StandsAt]; omega)
  exact ⟨_, hstep, rfl, fun i hi => blockWord_blockSetWord s.key j v hi⟩

/-- Settles O25: each offset is its register's, and a write to DINj replaces one word of DIN. -/
theorem idleWritesStoreTlenMsgLenAndDin : Obligations.IdleWritesStoreTlenMsgLenAndDin := by
  unfold Obligations.IdleWritesStoreTlenMsgLenAndDin
  intro s v rest he
  refine ⟨fun hp => step_write_idle_ofNat (tg := .tlen) he hp rfl (by decide) rfl,
    fun hp => step_write_idle_ofNat (tg := .msgLen) he hp rfl (by decide) rfl, fun j hj hp => ?_⟩
  have hstep := step_write_idle_ofNat (tg := .din j) he hp (by omega) (by omega) (by simp only [StandsAt]; omega)
  exact ⟨_, hstep, rfl, fun i hi => blockWord_blockSetWord s.din j v hi⟩

/-! ### Reset -/

/-- Every byte of the zero schedule is 0 (R48). -/
theorem schedByte_replicate_zero (k : Nat) : schedByte (Vector.replicate 44 0#32) k = 0x00#8 := by
  have hword : schedWord (Vector.replicate 44 0#32) (k / 4) = 0#32 := by
    rw [schedWord, Vector.toList_replicate, List.getD_eq_getElem?_getD, List.getElem?_replicate]
    split <;> rfl
  rw [schedByte, hword, wordByte, BitVec.extractLsb'_zero]

/-- Settles O28: a reset event is the power-on state but for the message RAM, MSG_CAP and the port. -/
theorem resetLeavesTheTabledState : Obligations.ResetLeavesTheTabledState := by
  unfold Obligations.ResetLeavesTheTabledState
  intro tabled
  have htabled (m : Memory) (c : Cap) (p : Port) : tabled { State.reset with msg := m, cap := c, port := p } := by
    refine ⟨rfl, ?_, rfl, rfl, rfl, rfl, rfl, rfl, rfl, rfl, fun k _ => schedByte_replicate_zero k⟩
    simp [statusWord, busyBit, codeOf]
  refine ⟨⟨htabled [] Config.msgCap ⟨[], []⟩, fun _ => rfl⟩, fun s rest hp => ?_⟩
  exact ⟨_, step_cons hp, htabled s.msg s.cap ⟨rest, s.port.returned⟩, fun _ => rfl, rfl, rfl⟩

end Sys2Proof.Machine

/-! PROOFS. What stays hidden and what stays zero: KEY and SCHED cannot be read back (10_state.md R22, R35, R42), and TAG
has no bits past TLEN (R38; 44_cmac_engine.md R222). -/

namespace Sys2Proof.Machine

/-! ### Truncation -/

/-- Truncation clears every bit below the tlen most significant ones (R222). -/
theorem getLsbD_truncateTag_of_lt (T : Block) {tlen b : Nat} (hb : b < 128 - tlen) :
    (truncateTag T tlen).getLsbD b = false := by
  rw [truncateTag, if_pos (by omega), getLsbD_blockOfBytes, truncatedByte, if_neg (by omega)]
  split
  next hpartial =>
    have hlow : b % 8 < 8 - tlen % 8 := by omega
    simp [hlow]
  next => simp

/-- Settles O53: both commands leave a truncated TAG. -/
theorem tagHasNoBitsPastTlen : Obligations.TagHasNoBitsPastTlen := by
  unfold Obligations.TagHasNoBitsPastTlen
  intro s i hi hrun _
  refine ⟨_, exec_busy_self i hrun, fun b hb => ?_⟩
  obtain rfl | rfl := hi
  · exact getLsbD_truncateTag_of_lt _ hb
  · exact getLsbD_truncateTag_of_lt _ hb

/-! ### KEY and SCHED are not readable -/

/-- The state with KEY and SCHED replaced: what a host without a command cannot tell from s. -/
def withKeySched (s : State) (k : Block) (S : Schedule) : State := { s with key := k, sched := S }

@[simp] theorem busRead_withKeySched (s : State) (k : Block) (S : Schedule) (off : Offset) :
    busRead (withKeySched s k S) off = busRead s off := by
  show readTarget _ (targetOf s.cap.bytes off) = readTarget s (targetOf s.cap.bytes off)
  cases targetOf s.cap.bytes off <;> rfl

/-- An idle write off CMD leaves ENG and the port, and does the same whatever KEY and SCHED are, but for KEY itself. -/
theorem idleWrite_offCmd (v : Word) (s : State) {tg : Target} (hne : tg ≠ .cmd) :
    ∃ t, idleWrite v s tg = .next t ∧ t.eng = s.eng ∧ t.port = s.port ∧
      ∀ k S, ∃ k', idleWrite v (withKeySched s k S) tg = .next (withKeySched t k' S) := by
  cases tg with
  | cmd => exact absurd rfl hne
  | key j => exact ⟨_, rfl, rfl, rfl, fun k S => ⟨blockSetWord k j v, rfl⟩⟩
  | tlen | msgLen | din | msg | status | cap | id | dout | tag | k1 | k2 | reserved =>
    exact ⟨_, rfl, rfl, rfl, fun k S => ⟨k, rfl⟩⟩

/-- One host transaction off CMD on an idle core: the core stays idle, and the step is the same whatever KEY and SCHED
are, but for KEY itself. -/
theorem step_offCmd {s : State} {e : Event} {rest : List Event} (he : s.eng = .idle)
    (hoff : isHostEventOffCmd e = true) (hp : s.port.pending = e :: rest) :
    ∃ t, step s = .next t ∧ t.eng = .idle ∧ t.port.pending = rest ∧
      ∀ k S, ∃ k', step (withKeySched s k S) = .next (withKeySched t k' S) := by
  cases e with
  | complete | reset => simp [isHostEventOffCmd] at hoff
  | read off =>
    refine ⟨_, step_read hp, he, rfl, fun k S => ⟨k, ?_⟩⟩
    rw [step_read (s := withKeySched s k S) hp, busRead_withKeySched]; rfl
  | write off v =>
    have hne : targetOf s.cap.bytes off ≠ .cmd := by
      intro h
      have hzero : alignedOffset off = 0 := congrArg BitVec.toNat (aligned_zero_of_targetOf_cmd h)
      simp [isHostEventOffCmd, hzero] at hoff
    obtain ⟨t, ht, heng, hport, hhidden⟩ := idleWrite_offCmd v (withPending s rest) hne
    refine ⟨t, ?_, heng.trans he, by rw [hport]; rfl, fun k S => ?_⟩
    · rw [step_write_idle he hp, ht]
    · rw [step_write_idle (s := withKeySched s k S) he hp]
      exact hhidden k S

/-- Settles O46, by induction on the transactions. -/
theorem keyAndScheduleAreNotReadable : Obligations.KeyAndScheduleAreNotReadable := by
  unfold Obligations.KeyAndScheduleAreNotReadable
  intro s k S es
  induction es generalizing s k with
  | nil => exact fun _ _ _ _ => ⟨s, withKeySched s k S, rfl, rfl, rfl, rfl⟩
  | cons e es ih =>
    intro rest he hoff hp
    obtain ⟨u, hu, hidle, hpu, hhidden⟩ := step_offCmd he (hoff e List.mem_cons_self) hp
    obtain ⟨k', hu'⟩ := hhidden k S
    obtain ⟨t, t', ht, ht', hport, heq⟩ :=
      ih u k' rest hidle (fun e' he' => hoff e' (List.mem_cons_of_mem e he')) hpu
    exact ⟨t, t', (runSteps_succ hu es.length).trans ht, (runSteps_succ hu' es.length).trans ht', hport, heq⟩

end Sys2Proof.Machine

/-! PROOFS. No step stops the core: every event answers a next state (20_memory.md R60; 30_encoding.md R99;
60_exceptions.md R289). What a busy core does with host transactions, one at a time and in a row, and a command from its
issue to its completion (20_memory.md R67, R68; 30_encoding.md R95, R99). -/

namespace Sys2Proof.Machine

/-! ### Every step answers a next state -/

theorem idleWrite_answers (v : Word) (s : State) (tg : Target) : ∃ t, idleWrite v s tg = .next t := by
  cases tg with
  | cmd =>
    rw [idleWrite, issueWord]
    cases decode v with
    | command i => exact ⟨_, exec_eq i s⟩
    | reservedBitsSet | opNotAssigned => exact ⟨_, rfl⟩
  | tlen | msgLen | key | din | msg | status | cap | id | dout | tag | k1 | k2 | reserved => exact ⟨_, rfl⟩

theorem coreStep_answers (s : State) : ∃ t, coreStep s = .next t := by
  cases he : s.eng with
  | idle => exact ⟨_, coreStep_idle he⟩
  | busy op => exact ⟨_, coreStep_busy he⟩

theorem takeEvent_answers (e : Event) (s : State) : ∃ t, takeEvent e s = .next t := by
  cases e with
  | read off | reset => exact ⟨_, rfl⟩
  | complete => exact coreStep_answers s
  | write off v =>
    cases he : s.eng with
    | busy op => exact ⟨_, busWrite_busy he off v⟩
    | idle => rw [takeEvent, busWrite_idle he]; exact idleWrite_answers v s _

/-- Settles O5: with no event pending the core's own step answers, and so does every event. -/
theorem everyStepAnswersANextState : Obligations.EveryStepAnswersANextState := by
  unfold Obligations.EveryStepAnswersANextState
  intro s
  cases hp : s.port.pending with
  | nil => rw [step_nil hp]; exact coreStep_answers s
  | cons e rest => rw [step_cons hp]; exact takeEvent_answers e _

/-! ### Reads in a row -/

/-- Reads leave the state and return what it shows (R67). -/
theorem runSteps_reads {s : State} {offs : List Offset} {rest : List Event}
    (hp : s.port.pending = offs.map .read ++ rest) :
    runSteps offs.length s =
      .next { s with port := ⟨rest, (offs.map (busRead s)).reverse ++ s.port.returned⟩ } := by
  induction offs generalizing s with
  | nil =>
    obtain rfl : s.port.pending = rest := hp
    rfl
  | cons off offs ih =>
    have hshow (p : Port) : busRead { s with port := p } = busRead s := funext (busRead_withPort s p)
    rw [List.length_cons, runSteps_succ (step_read hp), ih rfl, hshow]
    simp

/-- Settles O20, by induction on the reads. -/
theorem readsChangeNoState : Obligations.ReadsChangeNoState := by
  unfold Obligations.ReadsChangeNoState
  exact fun _ _ _ => runSteps_reads

/-! ### Host transactions while busy -/

/-- Settles O8: the case of `exec` in which another command runs. -/
theorem otherCommandWhileBusyIsDropped : Obligations.OtherCommandWhileBusyIsDropped := by
  unfold Obligations.OtherCommandWhileBusyIsDropped
  exact fun _ _ i => exec_busy_other i

/-- Settles O21: a write while busy is dropped. -/
theorem busyWriteOnlySetsWerr : Obligations.BusyWriteOnlySetsWerr := by
  unfold Obligations.BusyWriteOnlySetsWerr
  exact fun _ _ _ _ _ => step_write_busy

/-- The state with WERR and the port replaced: all that the host transactions on a busy core change (R67, R68). -/
def withWerrPort (s : State) (w : Bool) (p : Port) : State := { s with werr := w, port := p }

/-- One host transaction on a busy core: a write sets WERR, a read returns one value, and nothing else changes (R67,
R68). -/
theorem step_host_busy {s : State} {op : Instr} {e : Event} {rest : List Event} (he : s.eng = .busy op)
    (hhost : isHostEvent e = true) (hp : s.port.pending = e :: rest) :
    ∃ vs, vs.length = (if !isWrite e then 1 else 0) ∧
      step s = .next (withWerrPort s (s.werr || isWrite e) ⟨rest, vs ++ s.port.returned⟩) := by
  cases e with
  | complete | reset => simp [isHostEvent] at hhost
  | read off => exact ⟨[busRead s off], rfl, by rw [step_read hp, isWrite, Bool.or_false]; rfl⟩
  | write off v => exact ⟨[], rfl, by rw [step_write_busy he hp, isWrite, Bool.or_true]; rfl⟩

/-- Host transactions in a row on a busy core (R68). -/
theorem runSteps_host_busy {s : State} {op : Instr} {es rest : List Event} (he : s.eng = .busy op)
    (hhost : ∀ e ∈ es, isHostEvent e = true) (hp : s.port.pending = es ++ rest) :
    ∃ vs, vs.length = es.countP (fun e => !isWrite e) ∧
      runSteps es.length s = .next (withWerrPort s (s.werr || es.any isWrite) ⟨rest, vs ++ s.port.returned⟩) := by
  induction es generalizing s with
  | nil =>
    obtain rfl : s.port.pending = rest := hp
    exact ⟨[], rfl, by rw [List.any_nil, Bool.or_false]; rfl⟩
  | cons e es ih =>
    obtain ⟨hhead, htail⟩ := List.forall_mem_cons.mp hhost
    obtain ⟨us, hus, hstep⟩ := step_host_busy (rest := es ++ rest) he hhead hp
    obtain ⟨vs, hvs, hrun⟩ := ih (s := withWerrPort s (s.werr || isWrite e) ⟨es ++ rest, us ++ s.port.returned⟩)
      he htail rfl
    refine ⟨vs ++ us, ?_, ?_⟩
    · rw [List.length_append, hvs, hus, List.countP_cons]
    · rw [List.length_cons, runSteps_succ hstep, hrun]
      simp [withWerrPort, Bool.or_assoc]

/-- Settles O22, by induction on the transactions. -/
theorem busyCoreKeepsItsStateUntilCompletion : Obligations.BusyCoreKeepsItsStateUntilCompletion := by
  unfold Obligations.BusyCoreKeepsItsStateUntilCompletion
  exact fun _ _ _ _ => runSteps_host_busy

/-! ### A command from its issue to its completion -/

theorem step_complete_busy {s : State} {op : Instr} {rest : List Event} (he : s.eng = .busy op)
    (hp : s.port.pending = .complete :: rest) : step s = .next (finish (resultsOf op (withPending s rest))) := by
  rw [step_cons hp]; exact coreStep_busy (s := withPending s rest) he

/-- The word of a command issues the command (R92, R95). -/
theorem issueWord_encode (i : Instr) (s : State) : issueWord (encode i) s = exec i s := by cases i <;> rfl

/-- The issue checks of a command do not see the port. -/
@[simp] theorem issueCheck_withPending (i : Instr) (s : State) (es : List Event) :
    issueCheck i (withPending s es) = issueCheck i s := by
  cases i <;> rfl

/-- The write of a command's word to CMD while idle, when every issue check passes: the command is accepted (R95,
R97). -/
theorem step_issue_accepted {s : State} {i : Instr} {rest : List Event} (he : s.eng = .idle)
    (hcheck : issueCheck i s = none) (hp : s.port.pending = .write 0x0000#16 (encode i) :: rest) :
    step s = .next (accept i (clearReport (withPending s rest))) := by
  rw [step_write_idle he hp, targetOf_of_cmd rfl, idleWrite, issueWord_encode,
    exec_idle i (s := withPending s rest) he, issue, issueCheck_withPending, hcheck]

/-- No result of a command depends on WERR or on the port, and no completion changes them (R68, R91). -/
theorem finish_resultsOf_withWerrPort (i : Instr) (s : State) (w : Bool) (p : Port) :
    finish (resultsOf i (withWerrPort s w p)) = withWerrPort (finish (resultsOf i s)) w p := by
  cases i <;> rfl

/-- An accepted command, the host transactions before its completion, and the completion: but for WERR and the port the
core ends as if the command had completed at once (R68, R95, R99). -/
theorem runSteps_command {s : State} {i : Instr} {es rest : List Event} (he : s.eng = .idle)
    (hcheck : issueCheck i s = none) (hhost : ∀ e ∈ es, isHostEvent e = true)
    (hp : s.port.pending = .write 0x0000#16 (encode i) :: (es ++ .complete :: rest)) :
    ∃ vs, vs.length = es.countP (fun e => !isWrite e) ∧ runSteps (es.length + 2) s =
      .next (withWerrPort (finish (resultsOf i (accept i (clearReport s)))) (es.any isWrite)
        ⟨rest, vs ++ s.port.returned⟩) := by
  have hissue := step_issue_accepted he hcheck hp
  obtain ⟨vs, hvs, hhosts⟩ := runSteps_host_busy
    (s := accept i (clearReport (withPending s (es ++ .complete :: rest)))) rfl hhost rfl
  refine ⟨vs, hvs, ?_⟩
  have hcomplete := step_complete_busy (rest := rest)
    (s := withWerrPort (accept i (clearReport s)) (es.any isWrite) ⟨.complete :: rest, vs ++ s.port.returned⟩) rfl rfl
  calc runSteps (es.length + 2) s
    _ = runSteps (es.length + 1) (accept i (clearReport (withPending s (es ++ .complete :: rest)))) :=
      runSteps_succ hissue _
    _ = runSteps 1 _ := runSteps_add hhosts 1
    _ = .next (finish (resultsOf i (withWerrPort (accept i (clearReport s)) (es.any isWrite)
          ⟨rest, vs ++ s.port.returned⟩))) := runSteps_succ hcomplete 0
    _ = _ := by rw [finish_resultsOf_withWerrPort]

/-- An accepted command, the host transactions before its completion, the completion and reads after it: each of those
reads has returned what the last state shows. -/
theorem runSteps_command_reads {s : State} {i : Instr} {es rest : List Event} {offs : List Offset} (he : s.eng = .idle)
    (hcheck : issueCheck i s = none) (hhost : ∀ e ∈ es, isHostEvent e = true)
    (hp : s.port.pending = .write 0x0000#16 (encode i) :: (es ++ .complete :: (offs.map .read ++ rest))) :
    ∃ t vs, runSteps (es.length + offs.length + 2) s = .next t ∧ vs.length = es.countP (fun e => !isWrite e) ∧
      t.port = ⟨rest, (offs.map (busRead t)).reverse ++ (vs ++ s.port.returned)⟩ ∧
      t = withWerrPort (finish (resultsOf i (accept i (clearReport s)))) (es.any isWrite) t.port := by
  obtain ⟨vs, hvs, hcommand⟩ := runSteps_command he hcheck hhost hp
  have hrun := (runSteps_add hcommand offs.length).trans (runSteps_reads (rest := rest) rfl)
  rw [Nat.add_right_comm] at hrun
  exact ⟨_, vs, hrun, hvs, rfl, rfl⟩

end Sys2Proof.Machine

/-! PROOFS. Which offsets a transaction reaches: bits [1:0] ignored, the offsets that read 0 and those that ignore
writes, and the message RAM (20_memory.md R61, R63, R64). -/

namespace Sys2Proof.Machine

/-! ### Offset bits [1:0] -/

/-- The target of an offset is that of the aligned offset (R61). -/
@[simp] theorem targetOf_aligned (cap : Nat) (off : Offset) : targetOf cap (off &&& 0xFFFC#16) = targetOf cap off := by
  have haligned : alignedOffset (off &&& 0xFFFC#16) = alignedOffset off := by
    rw [alignedOffset, BitVec.and_assoc, BitVec.and_self]; rfl
  exact targetOf_eq (haligned ▸ targetOf_standsAt cap off)

/-- Settles O19: writes and reads see the offset through its target alone. -/
theorem lowOffsetBitsAreIgnored : Obligations.LowOffsetBitsAreIgnored := by
  unfold Obligations.LowOffsetBitsAreIgnored
  refine fun s off v => ⟨?_, ?_, takeEvent_answers _ s, takeEvent_answers _ s⟩
  · simp only [takeEvent, busWrite, targetOf_aligned]
  · simp only [takeEvent, busRead, targetOf_aligned]

/-! ### Reserved, read-only and write-only offsets -/

/-- Reserved offsets, CMD and KEY read 0 (R22, R63). -/
theorem busRead_eq_zero {s : State} {off : Offset}
    (h : StandsAt s.cap.bytes (alignedOffset off) .reserved ∨
      alignedOffset off = 0x0000 ∨ (0x0020 ≤ alignedOffset off ∧ alignedOffset off < 0x0030)) :
    busRead s off = 0x00000000#32 := by
  have hat := targetOf_standsAt s.cap.bytes off
  rw [busRead]
  cases htg : targetOf s.cap.bytes off with
  | cmd | key | reserved => rfl
  | status | tlen | msgLen | cap | id | din | dout | tag | k1 | k2 | msg =>
    simp only [htg, StandsAt] at hat h
    omega

/-- Reserved offsets, STATUS, CAP, ID and the result registers ignore an idle write (R63, R70). -/
theorem idleWrite_ignored (v : Word) (s : State) {cap : Nat} {off : Offset}
    (h : StandsAt cap (alignedOffset off) .reserved ∨ alignedOffset off = 0x0004 ∨ alignedOffset off = 0x0010 ∨
      alignedOffset off = 0x0014 ∨ (0x0040 ≤ alignedOffset off ∧ alignedOffset off < 0x0080)) :
    idleWrite v s (targetOf cap off) = .next s := by
  have hat := targetOf_standsAt cap off
  cases htg : targetOf cap off with
  | status | cap | id | dout | tag | k1 | k2 | reserved => rfl
  | cmd | tlen | msgLen | key | din | msg =>
    simp only [htg, StandsAt] at hat h
    omega

/-- Settles O23: the target at each of these offsets reads 0 or ignores an idle write; a busy write is dropped. -/
theorem reservedAndReadOnlyOffsetsIgnoreWrites : Obligations.ReservedAndReadOnlyOffsetsIgnoreWrites := by
  unfold Obligations.ReservedAndReadOnlyOffsetsIgnoreWrites
  intro s off v rest a reserved readOnly writeOnly
  refine ⟨busRead_eq_zero, fun h hp => ⟨fun he => ?_, fun op he => step_write_busy he hp⟩⟩
  rw [step_write_idle he hp]
  exact idleWrite_ignored v _ h

/-! ### The message RAM -/

/-- What a word write leaves in each message byte (R64). -/
theorem msgByte_memSetWord (s : State) (j a : Nat) (v : Word) :
    msgByte { s with msg := memSetWord s.msg j v } a =
      if 4 * j ≤ a ∧ a ≤ 4 * j + 3 then wordByte v (a - 4 * j) else msgByte s a := by
  rw [msgByte, memGet_memSetWord, apply_ite (Option.getD · _)]; rfl

/-- Byte k of a message word just written (R64). -/
theorem msgByte_memSetWord_of_lt (s : State) (j : Nat) (v : Word) {k : Nat} (hk : k < 4) :
    msgByte { s with msg := memSetWord s.msg j v } (4 * j + k) = wordByte v k := by
  rw [msgByte_memSetWord, if_pos (by omega), Nat.add_sub_cancel_left]

/-- A message word just written is the word (R64). -/
theorem msgWord_memSetWord (s : State) (j : Nat) (v : Word) :
    msgWord { s with msg := memSetWord s.msg j v } j = v := by
  simp [msgWord, msgByte_memSetWord, wordOfBytes_wordByte]

/-- Settles O26: the offset is that of message word j, and the write stores its four bytes. -/
theorem messageWriteStoresFourBytes : Obligations.MessageWriteStoresFourBytes := by
  unfold Obligations.MessageWriteStoresFourBytes
  intro s j v rest hj he hp
  have hcap := cap_bounds s.cap
  have hat : StandsAt s.cap.bytes (0x8000 + 4 * j) (.msg j) := by simp only [StandsAt]; omega
  have hstep := step_write_idle_ofNat he hp (by omega) (by omega) hat
  have hbyte (k : Nat) (hk : k < 4) := msgByte_memSetWord_of_lt (withPending s rest) j v hk
  refine ⟨_, hstep, rfl, hbyte 0 (by decide), hbyte 1 (by decide), hbyte 2 (by decide), hbyte 3 (by decide),
    fun a ha => ?_, ?_⟩
  · exact (msgByte_memSetWord (withPending s rest) j a v).trans (if_neg (by omega))
  · refine (busRead_ofNat (tg := .msg j) (by omega) (by omega) ?_).trans (msgWord_memSetWord (withPending s rest) j v)
    exact hat

/-- No step changes MSG_CAP (R10, R33). -/
theorem step_cap {s t : State} (hs : step s = .next t) : t.cap = s.cap := by
  refine step_preserves (P := fun u => u.cap = s.cap) hs ?port ?issue ?illegal ?tlen ?msgLen ?key ?din ?msg ?drop
    ?complete ?reset rfl
  case issue =>
    intro i u _ h
    obtain ⟨eng, done, err, hr⟩ := issue_eq_report i u
    rw [hr]; exact h
  case complete => exact fun op u _ h => (resultsOf_cap op u).trans h
  case port | illegal => exact fun _ _ => id
  case tlen | msgLen | key | din | drop => exact fun _ _ _ => id
  case msg => exact fun _ _ _ _ _ => id
  case reset => exact fun _ => id

/-- Settles O55, from the message RAM's part of the invariant. -/
theorem stepKeepsTheMessageRamCanonical : Obligations.StepKeepsTheMessageRamCanonical := by
  unfold Obligations.StepKeepsTheMessageRamCanonical
  exact fun _ _ h hs => ⟨memoryInv_step h hs, step_cap hs⟩

end Sys2Proof.Machine

/-! PROOFS. CMAC at the host port: the message it reads, and the results a host sees (20_memory.md R64, R66, R74;
44_cmac_engine.md R226, R230). -/

namespace Sys2Proof.Machine

/-- Settles O45: the one value CMAC takes from the message RAM is the message, whose bytes all lie below MSG_LEN. -/
theorem cmacIgnoresBytesPastTheMessage : Obligations.CmacIgnoresBytesPastTheMessage := by
  unfold Obligations.CmacIgnoresBytesPastTheMessage
  intro s m hrun hagree
  have hmessage : message { s with msg := m } = message s :=
    memRead_congr fun a _ ha => hagree a (by rwa [Nat.zero_add] at ha)
  have heffect : cmacEffect { s with msg := m } = { cmacEffect s with msg := m } := by
    rw [cmacEffect, hmessage]; rfl
  refine ⟨_, exec_busy_self .cmac hrun, ?_⟩
  rw [exec_busy_self .cmac (s := { s with msg := m }) hrun, resultsOf, heffect]; rfl

/-- The issue checks of CMAC pass (R282, R285). -/
theorem issueCheck_cmac_eq_none {s : State} (htlen : s.tlen.toNat ≤ 128) (hlen : s.msgLen.toNat ≤ s.cap.bytes) :
    issueCheck .cmac s = none := by
  rw [issueCheck, checkTlen, checkMsgLen, if_pos htlen, if_pos hlen]; rfl

/-- What STATUS shows of an idle core without an error whose last command is done (R24). -/
theorem busRead_status_of_done {t : State} (he : t.eng = .idle) (hd : t.done = true) (herr : t.errcode = none) :
    (busRead t 0x0004#16).getLsbD 0 = false ∧ (busRead t 0x0004#16).getLsbD 1 = true ∧
      (busRead t 0x0004#16).extractLsb' 8 4 = 0x0#4 := by
  obtain ⟨hfields, -⟩ := statusWordShowsItsFields
  obtain ⟨hread, hbusy, hdone, -, -, -, -, hcode, -⟩ := hfields t
  rw [hread, hcode, hdone, hd, herr]
  refine ⟨?_, rfl, rfl⟩
  rw [← Bool.not_eq_true, hbusy, he]
  exact nofun

/-- What the words of TAG, K1 and K2 show (R38 to R41). -/
theorem busRead_results (t : State) {j : Nat} (hj : j < 4) :
    busRead t (BitVec.ofNat 16 (0x0050 + 4 * j)) = blockWord t.tag j ∧
      busRead t (BitVec.ofNat 16 (0x0060 + 4 * j)) = blockWord t.k1 j ∧
      busRead t (BitVec.ofNat 16 (0x0070 + 4 * j)) = blockWord t.k2 j := by
  refine ⟨busRead_ofNat (tg := .tag j) (by omega) (by omega) ?_,
    busRead_ofNat (tg := .k1 j) (by omega) (by omega) ?_,
    busRead_ofNat (tg := .k2 j) (by omega) (by omega) ?_⟩ <;>
  · simp only [StandsAt]; omega

/-- Settles O43: CMAC is accepted and completes with the results of the state at its issue, and the later reads leave
them there. -/
theorem cmacTagReachesTheHost : Obligations.CmacTagReachesTheHost := by
  unfold Obligations.CmacTagReachesTheHost
  intro s es offs rest he htlen hlen hhost hp
  obtain ⟨t, vs, hrun, hvs, hport, ht⟩ :=
    runSteps_command_reads (i := .cmac) he (issueCheck_cmac_eq_none htlen hlen) hhost hp
  obtain ⟨hbusy, hdone, hcode⟩ :=
    busRead_status_of_done (congrArg State.eng ht) (congrArg State.done ht) (congrArg State.errcode ht)
  have htag : t.tag = cmac s.key (memRead s 0 s.msgLen.toNat) s.tlen.toNat := congrArg State.tag ht
  have hk1 : t.k1 = (derive (expand s.key)).1 := congrArg State.k1 ht
  have hk2 : t.k2 = (derive (expand s.key)).2 := congrArg State.k2 ht
  refine ⟨t, vs, hrun, hvs, hport, hbusy, hdone, hcode, fun j hj => ?_⟩
  rw [← htag, ← hk1, ← hk2]
  exact busRead_results t hj

end Sys2Proof.Machine

/-! PROOFS. The decoder: a word selects a command exactly when it is the command's own word, and which words are illegal
(30_encoding.md R90, R92, R93, R94, R96). -/

namespace Sys2Proof

theorem commandOfOp_opOf (i : Instr) : commandOfOp (opOf i) = some i := by cases i <;> rfl

theorem decode_encode (i : Instr) : decode (encode i) = .command i := by
  rw [decode, fieldsOf_encode, if_neg (not_not.mpr rfl), commandOfOp_opOf]

/-- The word is rebuilt from its fields: RSV is 0, and OP is the one value that selects the command. -/
theorem eq_encode_of_decode {v : Word} {i : Instr} (h : decode v = .command i) : v = encode i := by
  rcases decode_cases v with ⟨-, hv⟩ | ⟨-, -, hv⟩ | ⟨j, hrsv, hop, hv⟩
  · rw [hv] at h; cases h
  · rw [hv] at h; cases h
  · obtain rfl : j = i := Decoded.command.inj (hv.symm.trans h)
    calc v
      _ = (fieldsOf v).rsv ++ (fieldsOf v).op := (append_fieldsOf v).symm
      _ = 0#28 ++ opOf j := by rw [hrsv, commandOfOp_eq_some hop]

theorem decode_eq_command_iff {v : Word} {i : Instr} : decode v = .command i ↔ v = encode i :=
  ⟨eq_encode_of_decode, fun h => h ▸ decode_encode i⟩

theorem exists_commandOfOp_iff (op : BitVec 4) : (∃ i, commandOfOp op = some i) ↔ 1 ≤ op.toNat ∧ op.toNat ≤ 6 := by
  rw [← Option.isSome_iff_exists]
  revert op
  decide

/-- The legal words by their fields (R92). -/
theorem exists_decode_iff (v : Word) : (∃ i, decode v = .command i) ↔
    (fieldsOf v).rsv = 0#28 ∧ 1 ≤ (fieldsOf v).op.toNat ∧ (fieldsOf v).op.toNat ≤ 6 := by
  rw [← exists_commandOfOp_iff]
  rcases decode_cases v with ⟨hrsv, hv⟩ | ⟨-, hop, hv⟩ | ⟨i, hrsv, hop, hv⟩
  · simp [hv, hrsv]
  · simp [hv, hop]
  · exact ⟨fun _ => ⟨hrsv, i, hop⟩, fun _ => ⟨i, hv⟩⟩

/-- The illegal words by their fields (R93). -/
theorem decode_ne_command {v : Word}
    (h : (fieldsOf v).rsv ≠ 0#28 ∨ (fieldsOf v).op.toNat = 0 ∨ 7 ≤ (fieldsOf v).op.toNat) (i : Instr) :
    decode v ≠ .command i := by
  intro hi
  obtain ⟨hrsv, hlo, hhi⟩ := (exists_decode_iff v).mp ⟨i, hi⟩
  rcases h with h | h
  · exact h hrsv
  · omega

/-- Settles O2: the round trip of each command, and the word rebuilt from the fields that `decode` has matched. -/
theorem decodeAgreesWithEncode : Obligations.DecodeAgreesWithEncode := by
  unfold Obligations.DecodeAgreesWithEncode
  exact ⟨decode_encode, fun _ _ => eq_encode_of_decode⟩

/-- Settles O3: the legal words by their fields, and the table's rows as the words `encode i`. -/
theorem legalWordsAreThoseOfTheTable : Obligations.LegalWordsAreThoseOfTheTable := by
  unfold Obligations.LegalWordsAreThoseOfTheTable
  refine ⟨fun v => (exists_decode_iff v).symm, fun v i => ?_⟩
  rw [decode_eq_command_iff]
  cases i <;> simp [encode, opOf]

/-- Settles O1: the six words are those of `encode`. -/
theorem opcodeMapSelectsTheSixCommands : Obligations.OpcodeMapSelectsTheSixCommands := by
  unfold Obligations.OpcodeMapSelectsTheSixCommands
  exact ⟨decode_encode .expand, decode_encode .derive, decode_encode .encrypt, decode_encode .cmac,
    decode_encode .trunc, decode_encode .clear⟩

end Sys2Proof

/-! PROOFS. What a step makes of a command word: the issue of a legal one and the report of an illegal one, the frame of
the commands, and the way of a command to its completion (30_encoding.md R91, R93, R95, R97, R99, R100; 45_control.md
R262; 60_exceptions.md R282, R284 to R286). -/

namespace Sys2Proof.Machine

/-! ### The word written to CMD -/

/-- A write to CMD while idle issues its word (R69, R95). -/
theorem step_write_cmd {s : State} {off : Offset} {v : Word} {rest : List Event} (he : s.eng = .idle)
    (hp : s.port.pending = .write off v :: rest) (hoff : off &&& 0xFFFC#16 = 0#16) :
    step s = issueWord v (withPending s rest) := by
  rw [step_write_idle he hp, targetOf_of_cmd hoff, idleWrite]

theorem issueWord_of_decode {v : Word} {i : Instr} (h : decode v = .command i) (s : State) :
    issueWord v s = exec i s := by
  rw [issueWord, h]

theorem issueWord_of_illegal {v : Word} (h : ∀ i, decode v ≠ .command i) (s : State) :
    issueWord v s = .next (issueIllegal s) := by
  rw [issueWord]
  cases hv : decode v with
  | command i => exact absurd hv (h i)
  | reservedBitsSet | opNotAssigned => rfl

/-- Settles O6: such a word decodes to no command, and the issue of one that does not is `issueIllegal`. -/
theorem illegalWordIsReportedAndNothingElse : Obligations.IllegalWordIsReportedAndNothingElse := by
  unfold Obligations.IllegalWordIsReportedAndNothingElse
  refine ⟨fun s off v rest he hp hoff hv => ?_, rfl, fun v hv => decode_ne_command ?_⟩
  · rw [step_write_cmd he hp hoff, issueWord_of_illegal (decode_ne_command hv)]; rfl
  · fin_cases hv <;> decide

/-! ### The step of a command -/

theorem coreStep_eq_exec {s : State} {op : Instr} (he : s.eng = .busy op) : coreStep s = exec op s := by
  rw [coreStep, he]

/-- Settles O4, clause by clause: a CMD write issues its word, and every other step here is the core's own. -/
theorem stepRunsTheDecodedCommand : Obligations.StepRunsTheDecodedCommand := by
  unfold Obligations.StepRunsTheDecodedCommand
  intro s i rest
  refine ⟨fun off v he hp hoff hv => ?_, fun he hp => ?_, fun he hp => ?_, fun he hp => ?_, fun he hp => ?_⟩
  · rw [step_write_cmd he hp hoff, issueWord_of_decode hv]
  · rw [step_cons hp]; exact coreStep_eq_exec (s := withPending s rest) he
  · rw [step_nil hp, coreStep_eq_exec he]
  · rw [step_cons hp]; exact coreStep_idle (s := withPending s rest) he
  · rw [step_nil hp, coreStep_idle he]

/-! ### The issue -/

theorem exec_accepted {i : Instr} {s : State} (he : s.eng = .idle) (h : issueCheck i s = none) :
    exec i s = .next (accept i (clearReport s)) := by
  rw [exec_idle i he, issue, h]

theorem exec_reported {i : Instr} {s : State} {e : ErrCode} (he : s.eng = .idle) (h : issueCheck i s = some e) :
    exec i s = .next (raiseError e (clearReport s)) := by
  rw [exec_idle i he, issue, h]

/-- The issue of a command whose one check is SCHED_VALID (R284). -/
theorem exec_of_checkSched {i : Instr} {s : State} (he : s.eng = .idle) (h : issueCheck i s = checkSched s) :
    exec i s = .next (if s.schedValid then accept i (clearReport s)
      else raiseError .scheduleNotValid (clearReport s)) := by
  split
  next hvalid => exact exec_accepted he (h.trans (if_pos hvalid))
  next hvalid => exact exec_reported he (h.trans (if_neg hvalid))

theorem checkTlen_of_gt {s : State} (h : 128 < s.tlen.toNat) : checkTlen s = some .invalidTagLength :=
  if_neg (not_le.mpr h)

theorem checkTlen_of_le {s : State} (h : s.tlen.toNat ≤ 128) : checkTlen s = none := if_pos h

/-- Settles O7: the checks of each command in the order of R286, TLEN before MSG_LEN for CMAC. -/
theorem issueAcceptsOrReportsTheFirstError : Obligations.IssueAcceptsOrReportsTheFirstError := by
  unfold Obligations.IssueAcceptsOrReportsTheFirstError
  intro s he accepted reported
  refine ⟨exec_accepted he rfl, exec_accepted he rfl, exec_of_checkSched he rfl, exec_of_checkSched he rfl, ?_, ?_,
    rfl, rfl, rfl⟩
  · split
    next htlen => exact exec_reported he (checkTlen_of_gt htlen)
    next htlen => exact exec_accepted he (checkTlen_of_le (not_lt.mp htlen))
  · split
    next htlen => exact exec_reported he (by rw [issueCheck, checkTlen_of_gt htlen]; rfl)
    next htlen =>
      have hle := not_lt.mp htlen
      split
      next hlen =>
        refine exec_reported he ?_
        rw [issueCheck, checkTlen_of_le hle, checkMsgLen, if_neg (not_le.mpr hlen)]; rfl
      next hlen => exact exec_accepted he (issueCheck_cmac_eq_none hle (not_lt.mp hlen))

/-! ### The frame of a command -/

/-- Whatever step of a command `exec` is, it writes ENG and the report of STATUS, and beside them the command's results
or nothing. -/
theorem exec_writes_results_or_nothing {i : Instr} {s t : State} (h : exec i s = .next t) :
    ∃ r eng done werr err, (r = s ∨ r = resultsOf i s) ∧
      t = { r with eng := eng, done := done, werr := werr, errcode := err } := by
  cases he : s.eng with
  | idle =>
    rw [exec_idle i he] at h; cases h
    obtain ⟨eng, done, err, hr⟩ := issue_eq_report i s
    exact ⟨s, eng, done, false, err, .inl rfl, hr⟩
  | busy op =>
    by_cases hop : op = i
    · subst hop
      rw [exec_busy_self op he] at h; cases h
      exact ⟨_, .idle, true, _, _, .inr rfl, rfl⟩
    · rw [exec_busy_other i he hop] at h; cases h
      exact ⟨s, _, _, true, _, .inl rfl, rfl⟩

/-- The inputs of the commands, which no results overwrite (R91). -/
theorem resultsOf_inputs (i : Instr) (s : State) :
    (resultsOf i s).tlen = s.tlen ∧ (resultsOf i s).msgLen = s.msgLen ∧ (resultsOf i s).din = s.din ∧
      (resultsOf i s).port = s.port := by
  cases i <;> exact ⟨rfl, rfl, rfl, rfl⟩

theorem resultsOf_sched {i : Instr} (s : State) (hexpand : i ≠ .expand) (hcmac : i ≠ .cmac) (hclear : i ≠ .clear) :
    (resultsOf i s).sched = s.sched ∧ (resultsOf i s).schedValid = s.schedValid := by
  cases i with
  | expand | cmac | clear => contradiction
  | derive | encrypt | trunc => exact ⟨rfl, rfl⟩

theorem resultsOf_subkeyValid {i : Instr} (s : State) (hderive : i ≠ .derive) (hcmac : i ≠ .cmac)
    (hclear : i ≠ .clear) : (resultsOf i s).subkeyValid = s.subkeyValid := by
  cases i with
  | derive | cmac | clear => contradiction
  | expand | encrypt | trunc => rfl

/-- Settles O15: the report is no part of the frame, so it is enough that the results keep it. -/
theorem commandsWriteOnlyTheirResults : Obligations.CommandsWriteOnlyTheirResults := by
  unfold Obligations.CommandsWriteOnlyTheirResults
  intro i s t h
  obtain ⟨r, eng, done, werr, err, rfl | rfl, rfl⟩ := exec_writes_results_or_nothing h
  · simp [msgByte]
  · obtain ⟨htlen, hmsgLen, hdin, hport⟩ := resultsOf_inputs i s
    have hframe := resultsOf_frame i s
    refine ⟨fun a => by simp only [msgByte, resultsOf_msg], htlen, hmsgLen, hdin, resultsOf_cap i s, hport, hframe.key,
      resultsOf_sched s, fun hderive hcmac hclear => ?_, hframe.dout, hframe.tag⟩
    obtain ⟨hk1, hk2⟩ := hframe.subkeys hderive hcmac hclear
    exact ⟨hk1, hk2, resultsOf_subkeyValid s hderive hcmac hclear⟩

/-! ### From the issue to the completion -/

/-- Settles O42: the run of an accepted command ends with its completion in the state it was accepted in. -/
theorem commandResultIsFixedAtIssue : Obligations.CommandResultIsFixedAtIssue := by
  unfold Obligations.CommandResultIsFixedAtIssue
  intro i s es rest he hcheck hhost hp
  obtain ⟨vs, hvs, hrun⟩ := runSteps_command he hcheck hhost hp
  exact ⟨_, vs, exec_busy_self i (s := accept i (clearReport s)) rfl, hvs, hrun⟩

/-- A step of a busy core makes it idle or takes one event off the list and leaves the command running (R68, R99,
R320). -/
theorem step_busy {s : State} {op : Instr} (he : s.eng = .busy op) : ∃ t, step s = .next t ∧
    (t.eng = .idle ∨ t.eng = .busy op ∧ s.port.pending.length = t.port.pending.length + 1) := by
  obtain ⟨t, hs⟩ := everyStepAnswersANextState s
  refine ⟨t, hs, ?_⟩
  cases transition_of_step hs with
  | nothing hidle | written hidle => rw [he] at hidle; cases hidle
  | completion | reset => exact .inl rfl
  | read hp => exact .inr ⟨he, congrArg List.length hp⟩
  | dropped _ hp => exact .inr ⟨he, congrArg List.length hp⟩

/-- Settles O49, by induction on the number of pending events. -/
theorem busyCoreBecomesIdle : Obligations.BusyCoreBecomesIdle := by
  unfold Obligations.BusyCoreBecomesIdle
  intro s op he
  induction hn : s.port.pending.length generalizing s with
  | zero =>
    obtain ⟨t, hs, hidle | ⟨-, hlen⟩⟩ := step_busy he
    · exact ⟨1, t, le_rfl, runSteps_succ hs 0, hidle⟩
    · omega
  | succ n ih =>
    obtain ⟨t, hs, hidle | ⟨hbusy, hlen⟩⟩ := step_busy he
    · exact ⟨1, t, by omega, runSteps_succ hs 0, hidle⟩
    · obtain ⟨k, u, hk, hrun, hidle⟩ := ih t hbusy (by omega)
      exact ⟨k + 1, u, by omega, (runSteps_succ hs k).trans hrun, hidle⟩

end Sys2Proof.Machine

/-! PROOFS. The block cipher: products in GF(2^8), the substitution table, the four round operations byte by byte,
encryption round by round, and the ENCRYPT command (40_block_cipher.md R121 to R135). -/

namespace Sys2Proof.Machine

/-! ### The round operations, byte by byte -/

/-- Byte r + 4c of a block built from its cells is the cell in row r and column c (R125). -/
theorem blockByte_blockOfCells (f : Nat → Nat → Byte) {r c : Nat} (hr : r < 4) (hc : c < 4) :
    blockByte (blockOfCells f) (r + 4 * c) = f r c := by
  have hrow : (r + 4 * c) % 4 = r := by omega
  have hcol : (r + 4 * c) / 4 = c := by omega
  rw [blockOfCells, blockByte_blockOfBytes _ (by omega), hrow, hcol]

theorem blockByte_subBytes (b : Block) {k : Nat} (hk : k < 16) : blockByte (subBytes b) k = sbox (blockByte b k) :=
  blockByte_blockOfBytes _ hk

theorem blockByte_shiftRows (b : Block) {r c : Nat} (hr : r < 4) (hc : c < 4) :
    blockByte (shiftRows b) (r + 4 * c) = blockByte b (r + 4 * ((c + r) % 4)) :=
  blockByte_blockOfCells _ hr hc

theorem blockByte_mixColumns (b : Block) {r c : Nat} (hr : r < 4) (hc : c < 4) :
    blockByte (mixColumns b) (r + 4 * c) = mixColumn (cell b 0 c) (cell b 1 c) (cell b 2 c) (cell b 3 c) r :=
  blockByte_blockOfCells _ hr hc

/-- The index of the byte that ShiftRows moves to byte k (R127). -/
def shiftRowsSource (k : Nat) : Nat := k % 4 + 4 * ((k / 4 + k % 4) % 4)

theorem blockByte_shiftRows_source (b : Block) {k : Nat} (hk : k < 16) :
    blockByte (shiftRows b) k = blockByte b (shiftRowsSource k) := by
  have hcell := blockByte_shiftRows b (r := k % 4) (c := k / 4) (by omega) (by omega)
  rwa [Nat.mod_add_div] at hcell

/-- Settles O32: ShiftRows by cells, and by the sixteen source indices. -/
theorem shiftRowsMovesTheseBytes : Obligations.ShiftRowsMovesTheseBytes := by
  unfold Obligations.ShiftRowsMovesTheseBytes
  refine ⟨fun b r c => blockByte_shiftRows b, fun b => ?_⟩
  have hsource : (List.range 16).map shiftRowsSource = [0, 5, 10, 15, 4, 9, 14, 3, 8, 13, 2, 7, 12, 1, 6, 11] := by
    decide
  rw [← hsource, List.map_map]
  exact List.map_congr_left fun k hk => blockByte_shiftRows_source b (List.mem_range.mp hk)

/-- Settles O33: both operations read back from the bytes they are built of, MixColumns row by row. -/
theorem subBytesAndMixColumnsActLocally : Obligations.SubBytesAndMixColumnsActLocally := by
  unfold Obligations.SubBytesAndMixColumnsActLocally
  refine ⟨fun b k => blockByte_subBytes b, fun b c hc => ⟨?_, ?_, ?_, ?_⟩, by decide +kernel⟩
  · have hrow := blockByte_mixColumns b (r := 0) (by decide) hc
    rwa [Nat.zero_add] at hrow
  · exact blockByte_mixColumns b (r := 1) (by decide) hc
  · exact blockByte_mixColumns b (r := 2) (by decide) hc
  · exact blockByte_mixColumns b (r := 3) (by decide) hc

/-- Byte k of round key r is byte 16r + k of the schedule (R42, R129). -/
theorem blockByte_roundKey (S : Schedule) (r : Nat) {k : Nat} (hk : k < 16) :
    blockByte (roundKey S r) k = schedByte S (16 * r + k) := by
  have hword : (16 * r + k) / 4 = 4 * r + k / 4 := by omega
  have hbyte : (16 * r + k) % 4 = k % 4 := by omega
  calc blockByte (roundKey S r) k
      = blockByte (roundKey S r) (4 * (k / 4) + k % 4) := by rw [Nat.div_add_mod]
    _ = wordByte (blockWord (roundKey S r) (k / 4)) (k % 4) :=
      (wordByte_blockWord _ (by omega) (by omega)).symm
    _ = wordByte (schedWord S (4 * r + k / 4)) (k % 4) := by rw [roundKey, blockWord_blockOfWords _ (by omega)]
    _ = schedByte S (16 * r + k) := by rw [schedByte, hword, hbyte]

/-- Settles O35: XOR acts byte by byte, and the round key's bytes are the schedule's. -/
theorem addRoundKeyUsesSixteenScheduleBytes : Obligations.AddRoundKeyUsesSixteenScheduleBytes := by
  unfold Obligations.AddRoundKeyUsesSixteenScheduleBytes
  intro b S r _ k hk
  rw [addRoundKey, blockByte_xor, blockByte_roundKey S r hk]

/-! ### The rounds -/

/-- The state after the whitening and r full rounds (R130). -/
def roundState (S : Schedule) (b : Block) : Nat → Block
  | 0 => addRoundKey b S 0
  | r + 1 => fullRound S (r + 1) (roundState S b r)

/-- The model's loop over n full rounds reaches state n. -/
theorem foldl_fullRound_eq_roundState (S : Schedule) (b : Block) (n : Nat) :
    (List.range n).foldl (fun st i => fullRound S (i + 1) st) (addRoundKey b S 0) = roundState S b n := by
  induction n with
  | zero => rfl
  | succ n ih => rw [List.range_succ, List.foldl_append, ih]; rfl

theorem encrypt_eq_lastRound (S : Schedule) (b : Block) :
    encrypt S b = addRoundKey (shiftRows (subBytes (roundState S b 9))) S 10 := by
  rw [encrypt, foldl_fullRound_eq_roundState]

/-- Settles O36: the sequence is the one of the model's own loop. -/
theorem encryptIsTenRounds : Obligations.EncryptIsTenRounds := by
  unfold Obligations.EncryptIsTenRounds
  intro S b
  refine ⟨roundState S b, rfl, fun r h1 _ => ?_, encrypt_eq_lastRound S b⟩
  obtain ⟨r, rfl⟩ := Nat.exists_eq_add_of_le' h1
  rfl

/-! ### ENCRYPT -/

/-- Settles O11: the issue by the one check of SCHED_VALID, the completion by the command's results. -/
theorem encryptCompletesWithTheCipherBlock : Obligations.EncryptCompletesWithTheCipherBlock := by
  unfold Obligations.EncryptCompletesWithTheCipherBlock
  refine ⟨fun s => ⟨fun he hinvalid => ?_, fun he hvalid => ?_, exec_busy_self .encrypt⟩, by decide +kernel⟩
  · exact exec_reported he (by rw [issueCheck, checkSched, hinvalid]; rfl)
  · exact exec_accepted he (by rw [issueCheck, checkSched, hvalid]; rfl)

/-! ### The field and the substitution table -/

/-- Settles O34: a factor's set bits are the powers of x that are added up. -/
theorem gmulBySmallFactors : Obligations.GmulBySmallFactors := by
  unfold Obligations.GmulBySmallFactors
  refine ⟨fun a => ⟨?_, ?_, ?_⟩, by decide⟩
  · calc gmul a 1 = 0 ^^^ xtimeIter 0 a := rfl
      _ = a := BitVec.zero_xor
  · calc gmul a 2 = 0 ^^^ xtimeIter 1 a := rfl
      _ = xtime a := BitVec.zero_xor
  · calc gmul a 3 = 0 ^^^ xtimeIter 0 a ^^^ xtimeIter 1 a := rfl
      _ = a ^^^ xtime a := congrArg (· ^^^ xtime a) BitVec.zero_xor
      _ = xtime a ^^^ a := BitVec.xor_comm _ _

/-- The inverse of the affine map of R122: bit i is the XOR of bits i + 2, i + 5 and i + 7, modulo 8, of y and bit i
of 0x05. -/
def affineInverse (y : Byte) : Byte := y.rotateRight 2 ^^^ y.rotateRight 5 ^^^ y.rotateRight 7 ^^^ 0x05#8

theorem getLsbD_affineInverse (y : Byte) {i : Nat} (hi : i < 8) : (affineInverse y).getLsbD i =
    (y.getLsbD ((i + 2) % 8) ^^ y.getLsbD ((i + 5) % 8) ^^ y.getLsbD ((i + 7) % 8) ^^ (0x05#8).getLsbD i) := by
  interval_cases i <;> simp [affineInverse]

/-- The same at an index that is given modulo 8, with each index on the right as i plus a constant. -/
theorem getLsbD_affineInverse_mod (y : Byte) (i k : Nat) : (affineInverse y).getLsbD ((i + k) % 8) =
    (y.getLsbD ((i + (k + 2)) % 8) ^^ y.getLsbD ((i + (k + 5)) % 8) ^^ y.getLsbD ((i + (k + 7)) % 8) ^^
      (0x05#8).getLsbD ((i + k) % 8)) := by
  rw [getLsbD_affineInverse y (Nat.mod_lt _ (by decide))]
  simp only [Nat.mod_add_mod, Nat.add_assoc]

/-- R122's sum of five bits, each of them the inverse map's sum of three bits of y and a constant: every bit of y but
y0 stands in it twice, and the constants cancel. -/
theorem xor_cancels_pairs (y0 y1 y2 y3 y4 y5 y6 y7 c0 c4 c5 c6 c7 : Bool) :
    ((y2 ^^ y5 ^^ y7 ^^ c0) ^^ (y6 ^^ y1 ^^ y3 ^^ c4) ^^ (y7 ^^ y2 ^^ y4 ^^ c5) ^^ (y0 ^^ y3 ^^ y5 ^^ c6) ^^
      (y1 ^^ y4 ^^ y6 ^^ c7) ^^ (c0 ^^ c4 ^^ c5 ^^ c6 ^^ c7)) = y0 := by
  simp [Bool.xor_comm, Bool.xor_left_comm]

/-- The affine map of R122, applied to the inverse map's value, gives y back; R122's constant 0x63 is what
its sum makes of the bits of the inverse map's 0x05. -/
theorem getLsbD_affine_affineInverse (y : Byte) {i : Nat} (hi : i < 8) :
    let x := affineInverse y
    y.getLsbD i = (x.getLsbD i ^^ x.getLsbD ((i + 4) % 8) ^^ x.getLsbD ((i + 5) % 8) ^^ x.getLsbD ((i + 6) % 8) ^^
      x.getLsbD ((i + 7) % 8) ^^ (0x63#8).getLsbD i) := by
  have hconst : ∀ i < 8, (0x63#8).getLsbD i = ((0x05#8).getLsbD i ^^ (0x05#8).getLsbD ((i + 4) % 8) ^^
      (0x05#8).getLsbD ((i + 5) % 8) ^^ (0x05#8).getLsbD ((i + 6) % 8) ^^ (0x05#8).getLsbD ((i + 7) % 8)) := by decide
  have hwrap (k : Nat) : (i + (8 + k)) % 8 = (i + k) % 8 := by omega
  have hzero : (i + 0) % 8 = i := Nat.mod_eq_of_lt hi
  dsimp only
  rw [hconst i hi, getLsbD_affineInverse y hi]
  simp only [getLsbD_affineInverse_mod]
  rw [hwrap 0, hwrap 1, hwrap 2, hwrap 3, hwrap 4, hwrap 5, hwrap 6, hzero]
  exact (xor_cancels_pairs ..).symm

/-- The table of R121 against the field: below the affine map, each entry is the inverse of its index. -/
theorem gmul_affineInverse_sbox : ∀ b : Byte,
    b = 0x00#8 ∧ affineInverse (sbox b) = 0x00#8 ∨ gmul b (affineInverse (sbox b)) = 0x01#8 := by
  decide +kernel

/-- Settles O31: the inverse is the table's entry with the affine map undone. -/
theorem sboxIsTheAffineMapOfTheInverse : Obligations.SboxIsTheAffineMapOfTheInverse := by
  unfold Obligations.SboxIsTheAffineMapOfTheInverse
  exact fun b => ⟨affineInverse (sbox b), gmul_affineInverse_sbox b, fun i => getLsbD_affine_affineInverse (sbox b)⟩

end Sys2Proof.Machine

/-! PROOFS. The key schedule: the round constants, the words of an expansion by index and byte by byte, and the EXPAND
command (41_key_schedule.md R160 to R166). -/

namespace Sys2Proof.Machine

/-! ### The round constants -/

/-- Settles O30: the table entry by entry, and the nine doublings along it. -/
theorem roundConstantsAreThePowersOfX : Obligations.RoundConstantsAreThePowersOfX := by
  unfold Obligations.RoundConstantsAreThePowersOfX
  have hdouble : ∀ r < 10, 1 ≤ r → rcon (r + 1) = xtime (rcon r) := by decide
  exact ⟨by decide, fun r h1 h9 => hdouble r (Nat.lt_succ_of_le h9) h1⟩

/-! ### The words of an expansion -/

/-- The word that one more step of the expansion appends (R163). -/
theorem getD_expandWords_succ (K : Block) (n : Nat) : (expandWords K (n + 1)).getD (n + 4) 0#32 =
    (expandWords K n).getD n 0#32 ^^^ scheduleTerm (n + 4) ((expandWords K n).getD (n + 3) 0#32) := by
  rw [expandWords, List.getD_append_right _ _ _ _ (expandWords_length K n).le, expandWords_length, Nat.sub_self,
    List.getD_cons_zero]

/-- Further steps of the expansion leave the words that stand as they are. -/
theorem getD_expandWords_of_le (K : Block) {n m i : Nat} (hi : i < n + 4) (hnm : n ≤ m) :
    (expandWords K m).getD i 0#32 = (expandWords K n).getD i 0#32 := by
  induction m, hnm using Nat.le_induction with
  | base => rfl
  | succ m hnm ih =>
    rw [expandWords, List.getD_append _ _ _ _ (by rw [expandWords_length]; omega), ih]

/-- Word i of the schedule is word i of every expansion that has come as far as i. -/
theorem schedWord_expand (K : Block) {n i : Nat} (hi : i < n + 4) (hn : n ≤ 40) :
    schedWord (expand K) i = (expandWords K n).getD i 0#32 :=
  getD_expandWords_of_le K hi hn

/-- The first four words are the key's (R163). -/
theorem schedWord_expand_key (K : Block) {i : Nat} (hi : i < 4) : schedWord (expand K) i = blockWord K i := by
  rw [schedWord_expand K (n := 0) hi (by decide)]
  interval_cases i <;> rfl

/-- Every later word is the word four before it XOR the term made from the word before it (R163). -/
theorem schedWord_expand_add_four (K : Block) {n : Nat} (hn : n < 40) : schedWord (expand K) (n + 4) =
    schedWord (expand K) n ^^^ scheduleTerm (n + 4) (schedWord (expand K) (n + 3)) := by
  rw [schedWord_expand K (n := n + 1) (by omega) hn, getD_expandWords_succ,
    ← schedWord_expand K (i := n) (by omega) hn.le, ← schedWord_expand K (i := n + 3) (by omega) hn.le]

/-- Round key 0 is the key (R164). -/
theorem roundKey_expand_zero (K : Block) : roundKey (expand K) 0 = K :=
  block_ext_words fun j hj => by
    rw [roundKey, blockWord_blockOfWords _ hj, Nat.mul_zero, Nat.zero_add, schedWord_expand_key K hj]

/-! ### The term of the recurrence, byte by byte -/

/-- XOR of words acts byte by byte (R160). -/
@[simp] theorem wordByte_xor (v w : Word) (k : Nat) : wordByte (v ^^^ w) k = wordByte v k ^^^ wordByte w k :=
  BitVec.extractLsb'_xor

theorem wordByte_rotWord (w : Word) {k : Nat} (hk : k < 4) : wordByte (rotWord w) k = wordByte w ((k + 1) % 4) := by
  rw [rotWord, wordByte_wordOfBytes _ _ _ _ hk]
  interval_cases k <;> rfl

theorem wordByte_subWord (w : Word) {k : Nat} (hk : k < 4) : wordByte (subWord w) k = sbox (wordByte w k) := by
  rw [subWord, wordByte_wordOfBytes _ _ _ _ hk]
  interval_cases k <;> rfl

/-- A word with zeros after its first byte, as the round constant is added (R163). -/
theorem wordByte_firstByteOnly (b : Byte) {k : Nat} (hk : k < 4) :
    wordByte (wordOfBytes b 0x00#8 0x00#8 0x00#8) k = if k = 0 then b else 0x00#8 := by
  rw [wordByte_wordOfBytes _ _ _ _ hk]
  interval_cases k <;> rfl

/-- At every fourth word the term is rotated, substituted and given its round constant; elsewhere it is the word before
(R163, R165). -/
theorem wordByte_scheduleTerm (i : Nat) (t : Word) {k : Nat} (hk : k < 4) : wordByte (scheduleTerm i t) k =
    if i % 4 = 0 then sbox (wordByte t ((k + 1) % 4)) ^^^ (if k = 0 then rcon (i / 4) else 0x00#8)
    else wordByte t k := by
  rw [scheduleTerm]
  split
  · rw [wordByte_xor, wordByte_subWord _ hk, wordByte_rotWord _ hk, wordByte_firstByteOnly _ hk]
  · rfl

/-- Settles O29: the recurrence of the words, read byte by byte. -/
theorem expandFollowsTheWordRecurrence : Obligations.ExpandFollowsTheWordRecurrence := by
  unfold Obligations.ExpandFollowsTheWordRecurrence
  refine fun K => ⟨roundKey_expand_zero K, fun i => schedWord_expand_key K, fun i h4 h44 k hk => ?_⟩
  obtain ⟨n, rfl⟩ := Nat.exists_eq_add_of_le' h4
  have hprev : n + 4 - 1 = n + 3 := rfl
  rw [Nat.add_sub_cancel, hprev, schedWord_expand_add_four K (by omega), wordByte_xor, wordByte_scheduleTerm _ _ hk]

/-! ### EXPAND -/

/-- Settles O9: no check at the issue, the command's results at the completion, and the rule's key evaluated. -/
theorem expandCompletesWithTheSchedule : Obligations.ExpandCompletesWithTheSchedule := by
  unfold Obligations.ExpandCompletesWithTheSchedule
  exact ⟨fun _ => ⟨fun he => exec_accepted he rfl, exec_busy_self .expand⟩, by decide +kernel⟩

end Sys2Proof.Machine

/-! PROOFS. The doubling byte by byte, and the DERIVE command (42_subkey_derivation.md R180 to R185). -/

namespace Sys2Proof.Machine

/-! ### The doubling -/

/-- The shift takes the top bit of the next byte into each byte but the last (R182). -/
theorem blockByte_shiftLeft_one (b : Block) {k : Nat} (hk : k < 15) :
    blockByte (b <<< 1) k = (blockByte b k <<< 1) ||| (blockByte b (k + 1) >>> 7) := by
  obtain ⟨m, hnext⟩ : ∃ m, 15 - (k + 1) = m := ⟨_, rfl⟩
  have hbyte : 15 - k = m + 1 := by omega
  apply BitVec.eq_of_getLsbD_eq
  intro i hi
  simp only [BitVec.getLsbD_or, BitVec.getLsbD_shiftLeft, BitVec.getLsbD_ushiftRight, getLsbD_blockByte, hbyte, hnext]
  obtain _ | j := i
  · have hcarry : 8 * (m + 1) + 0 - 1 = 8 * m + 7 := rfl
    rw [hcarry]
    simp [(by omega : 8 * (m + 1) < 128)]
  · have hcarry : decide (7 + (j + 1) < 8) = false := decide_eq_false (by omega)
    have hbit : 8 * (m + 1) + (j + 1) - 1 = 8 * (m + 1) + j := rfl
    rw [hcarry, hbit]
    simp [hi, (by omega : 8 * (m + 1) + (j + 1) < 128), (by omega : j < 8)]

/-- The shift takes a zero into the last byte (R182). -/
theorem blockByte_shiftLeft_one_last (b : Block) : blockByte (b <<< 1) 15 = blockByte b 15 <<< 1 := by
  apply BitVec.eq_of_getLsbD_eq
  intro i hi
  simp only [getLsbD_blockByte, BitVec.getLsbD_shiftLeft]
  simp [hi, (by omega : i < 128), (by omega : i - 1 < 8)]

/-- The reduction constant has no bit outside the last byte (R180). -/
theorem blockByte_reduction : ∀ k < 15, blockByte 0x87#128 k = 0x00#8 := by decide

/-- Bit 127 of a block is bit 7 of byte 0 (R11). -/
theorem getLsbD_blockByte_zero_seven (b : Block) : (blockByte b 0).getLsbD 7 = b.getLsbD 127 :=
  getLsbD_blockByte b 0 7

/-- The reduction leaves every byte of the shifted block but the last as it is (R180). -/
theorem blockByte_dbl_of_lt (b : Block) {k : Nat} (hk : k < 15) : blockByte (dbl b) k = blockByte (b <<< 1) k := by
  rw [dbl]
  split
  · rw [blockByte_xor, blockByte_reduction k hk, BitVec.xor_zero]
  · rfl

/-- Settles O37: the shift byte by byte, and the reduction in the last byte alone. -/
theorem doublingShiftsByteByByte : Obligations.DoublingShiftsByteByByte := by
  unfold Obligations.DoublingShiftsByteByByte
  refine fun b => ⟨fun k hk => (blockByte_dbl_of_lt b hk).trans (blockByte_shiftLeft_one b hk), ?_⟩
  rw [getLsbD_blockByte_zero_seven, ← blockByte_shiftLeft_one_last, dbl]
  split
  · exact blockByte_xor (b <<< 1) 0x87#128 15
  · rfl

/-! ### DERIVE -/

/-- Settles O10: the issue by the one check of SCHED_VALID, the completion by the command's results, and the rule's key
evaluated. -/
theorem deriveCompletesWithTheSubkeys : Obligations.DeriveCompletesWithTheSubkeys := by
  unfold Obligations.DeriveCompletesWithTheSubkeys
  refine ⟨fun s => ⟨fun he hinvalid => ?_, fun he hvalid => ?_, exec_busy_self .derive⟩, by decide +kernel⟩
  · exact exec_reported he (if_neg (Bool.eq_false_iff.mp hinvalid))
  · exact exec_accepted he (if_pos hvalid)

end Sys2Proof.Machine

/-! PROOFS. The message formatter: the bytes of a message block and of a padded block, and the last block by its two
cases (43_message_formatter.md R200 to R205). -/

namespace Sys2Proof.Machine

theorem blockByte_blockOfList (l : List Byte) {k : Nat} (hk : k < 16) : blockByte (blockOfList l) k = l.getD k 0x00#8 :=
  blockByte_blockOfBytes _ hk

/-- Reading a message from an offset on. -/
theorem getD_drop (l : List Byte) (n k : Nat) : (l.drop n).getD k 0x00#8 = l.getD (n + k) 0x00#8 := by
  simp only [List.getD_eq_getElem?_getD, List.getElem?_drop]

/-- Block i of a message is its bytes from 16i on (R203). -/
theorem blockByte_msgBlock (M : List Byte) (i : Nat) {k : Nat} (hk : k < 16) :
    blockByte (msgBlock M i) k = M.getD (16 * i + k) 0x00#8 := by
  rw [msgBlock, blockByte_blockOfList _ hk, List.getD_eq_getElem?_getD, List.getElem?_take_of_lt hk,
    ← List.getD_eq_getElem?_getD, getD_drop]

/-- The real bytes, the 0x80 byte immediately after them, and zeros (R205). -/
theorem blockByte_pad (rem : List Byte) {k : Nat} (hk : k < 16) : blockByte (pad rem) k =
    if k < rem.length then rem.getD k 0x00#8 else if k = rem.length then 0x80#8 else 0x00#8 := by
  rw [pad, blockByte_blockOfList _ hk]
  split
  next hreal => exact List.getD_append _ _ _ _ hreal
  next hpad =>
    rw [List.getD_append_right _ _ _ _ (Nat.le_of_not_lt hpad)]
    split
    next hmark => rw [hmark, Nat.sub_self, List.getD_cons_zero]
    next hzero =>
      obtain ⟨j, hj⟩ : ∃ j, k - rem.length = j + 1 := ⟨k - rem.length - 1, by omega⟩
      rw [hj, List.getD_cons_succ, List.getD_eq_getElem?_getD, List.getElem?_getD_replicate_default_eq]

/-- The two conditions of R202 as they are read in the rule. -/
theorem isComplete_iff (len : Nat) : isComplete len = true ↔ 0 < len ∧ len % 16 = 0 := by
  simp [isComplete]

/-- An incomplete message leaves at most 15 bytes for its last block (R202). -/
theorem remainder_le_of_incomplete {len : Nat} (h : ¬ (0 < len ∧ len % 16 = 0)) :
    len - 16 * (blockCount len - 1) ≤ 15 := by
  rw [blockCount]
  omega

/-- Both cases of R204 give the block count. -/
theorem formatLastBlock_fst (M : List Byte) (K1 K2 : Block) : (formatLastBlock M K1 K2).1 = blockCount M.length := by
  rw [formatLastBlock]
  split <;> rfl

/-- A complete message's last block is its last 16 bytes under K1 (R204). -/
theorem formatLastBlock_snd_of_complete {M : List Byte} (K1 K2 : Block) (h : 0 < M.length ∧ M.length % 16 = 0) :
    (formatLastBlock M K1 K2).2 = msgBlock M (blockCount M.length - 1) ^^^ K1 := by
  rw [formatLastBlock, if_pos ((isComplete_iff _).mpr h)]

/-- Any other message's last block is its remaining bytes, padded, under K2 (R204). -/
theorem formatLastBlock_snd_of_incomplete {M : List Byte} (K1 K2 : Block) (h : ¬ (0 < M.length ∧ M.length % 16 = 0)) :
    (formatLastBlock M K1 K2).2 = pad (M.drop (16 * (blockCount M.length - 1))) ^^^ K2 := by
  rw [formatLastBlock, if_neg (mt (isComplete_iff _).mp h)]

/-- Settles O38: the count in both cases, then the last block byte by byte, of a complete message and of any other. -/
theorem lastBlockIsFormattedByLength : Obligations.LastBlockIsFormattedByLength := by
  unfold Obligations.LastBlockIsFormattedByLength
  refine fun M K1 K2 => ⟨formatLastBlock_fst M K1 K2, fun hcomplete k hk => ?_, fun hincomplete =>
    ⟨remainder_le_of_incomplete hincomplete, fun k hk => ?_⟩⟩
  · rw [formatLastBlock_snd_of_complete K1 K2 hcomplete, blockByte_xor, blockByte_msgBlock _ _ hk, blockCount]
  · rw [formatLastBlock_snd_of_incomplete K1 K2 hincomplete, blockByte_xor, blockByte_pad _ hk, List.length_drop,
      getD_drop, blockCount]

end Sys2Proof.Machine

/-! PROOFS. The CMAC engine: the chain block by block, truncation bit by bit, and the CMAC and TRUNC commands
(44_cmac_engine.md R220 to R235). -/

namespace Sys2Proof.Machine

/-! ### The chain -/

/-- The last full block that the chain absorbs may be taken for the last block of a chain one block shorter (R220). -/
theorem chain_add_two (S : Schedule) (M : List Byte) (last : Block) (n : Nat) :
    chain S M last (n + 2) = encrypt S (chain S M (msgBlock M n) (n + 1) ^^^ last) := by
  have hcount : n + 2 - 1 = n + 1 := rfl
  rw [chain, chain, hcount, Nat.add_sub_cancel, List.range_succ, List.foldl_append]
  rfl

/-- Settles O39: a chain of one block starts from zero, a longer one from the chain before its last block. -/
theorem chainAbsorbsBlocksInOrder : Obligations.ChainAbsorbsBlocksInOrder := by
  unfold Obligations.ChainAbsorbsBlocksInOrder
  refine fun S M last => ⟨congrArg (encrypt S) BitVec.zero_xor, fun n h1 => ?_, fun i _ k => blockByte_msgBlock M i⟩
  obtain ⟨n, rfl⟩ := Nat.exists_eq_add_of_le' h1
  exact chain_add_two S M last n

/-! ### Truncation -/

/-- Bit b of a block stands in byte 15 - b / 8 (R11). -/
theorem getLsbD_blockByte_of_bit (T : Block) {b : Nat} (hb : b < 128) :
    (blockByte T (15 - b / 8)).getLsbD (b % 8) = T.getLsbD b := by
  have hbit : 8 * (15 - (15 - b / 8)) + b % 8 = b := by omega
  rw [getLsbD_blockByte, hbit, decide_eq_true (by omega), Bool.true_and]

/-- The mask of the partial byte keeps its r most significant bits (R222). -/
theorem getLsbD_partialMask : ∀ r < 8, ∀ j < 8, 8 - r ≤ j → (0xFF#8 <<< (8 - r)).getLsbD j = true := by decide

/-- A truncated block's byte keeps the bits that are among the tlen most significant ones of the block (R222). -/
theorem getLsbD_truncatedByte_of_le (T : Block) {tlen b : Nat} (hb : 128 - tlen ≤ b) (hlt : b < 128) :
    (truncatedByte T tlen (15 - b / 8)).getLsbD (b % 8) = T.getLsbD b := by
  rw [truncatedByte]
  split
  next hfull => exact getLsbD_blockByte_of_bit T hlt
  next hpartial =>
    rw [if_pos (by omega), BitVec.getLsbD_and, getLsbD_blockByte_of_bit T hlt,
      getLsbD_partialMask _ (by omega) _ (by omega) (by omega), Bool.and_true]

/-- Truncation keeps every bit among the tlen most significant ones (R222). -/
theorem getLsbD_truncateTag_of_le (T : Block) {tlen b : Nat} (hb : 128 - tlen ≤ b) (hlt : b < 128) :
    (truncateTag T tlen).getLsbD b = T.getLsbD b := by
  rw [truncateTag]
  split
  next hshort => rw [getLsbD_blockOfBytes, decide_eq_true hlt, Bool.true_and, getLsbD_truncatedByte_of_le T hb hlt]
  next => rfl

/-- Bit b of a truncated block: the bit of the block, where it is among the tlen most significant ones (R222). -/
theorem getLsbD_truncateTag (T : Block) (tlen : Nat) {b : Nat} (hlt : b < 128) :
    (truncateTag T tlen).getLsbD b = (decide (128 - tlen ≤ b) && T.getLsbD b) := by
  by_cases hb : 128 - tlen ≤ b
  · rw [getLsbD_truncateTag_of_le T hb hlt, decide_eq_true hb, Bool.true_and]
  · rw [getLsbD_truncateTag_of_lt T (not_le.mp hb), decide_eq_false hb, Bool.false_and]

/-- The mask of R223 has exactly the bits from k on set. -/
theorem getLsbD_topMask {k b : Nat} (hk : k ≤ 128) (hb : b < 128) :
    (BitVec.ofNat 128 (2 ^ 128 - 2 ^ k)).getLsbD b = decide (k ≤ b) := by
  have hbelow : 2 ^ k - 1 < 2 ^ 128 :=
    lt_of_lt_of_le (Nat.pred_lt (Nat.two_pow_pos k).ne') (Nat.pow_le_pow_right (by decide) hk)
  rw [BitVec.getLsbD_ofNat, ← Nat.sub_add_cancel (Nat.one_le_two_pow (n := k)), Nat.testBit_two_pow_sub_succ hbelow,
    Nat.testBit_two_pow_sub_one, decide_eq_true hb, Bool.true_and, Bool.true_and, ← decide_not,
    decide_eq_decide.mpr not_lt]

/-- Settles O40: both sides, bit by bit. -/
theorem truncateKeepsTheTopBits : Obligations.TruncateKeepsTheTopBits := by
  unfold Obligations.TruncateKeepsTheTopBits
  intro T tlen _
  apply BitVec.eq_of_getLsbD_eq
  intro b hb
  rw [getLsbD_truncateTag T tlen hb, BitVec.getLsbD_and, getLsbD_topMask (Nat.sub_le 128 tlen) hb, Bool.and_comm]

/-- A bit survives both truncations when it is among the fewer most significant ones (R225). -/
theorem truncateTag_truncateTag (T : Block) (a b : Nat) :
    truncateTag (truncateTag T a) b = truncateTag T (min a b) := by
  apply BitVec.eq_of_getLsbD_eq
  intro i hi
  have hkept : 128 - min a b ≤ i ↔ 128 - b ≤ i ∧ 128 - a ≤ i := by omega
  simp only [getLsbD_truncateTag _ _ hi, hkept, Bool.decide_and, Bool.and_assoc]

theorem truncateTag_full (T : Block) : truncateTag T 128 = T := if_neg (lt_irrefl 128)

/-- The 128-bit tag is the whole last chaining value, which every shorter tag truncates (R221, R226). -/
theorem truncateTag_cmac_full (K : Block) (M : List Byte) (t : Nat) : truncateTag (cmac K M 128) t = cmac K M t := by
  rw [cmac, cmac, truncateTag_full]

/-- Settles O41: truncation twice, and the tag as a truncation of the 128-bit one. -/
theorem truncationIsMonotone : Obligations.TruncationIsMonotone := by
  unfold Obligations.TruncationIsMonotone
  exact ⟨fun T a b _ _ => truncateTag_truncateTag T a b, fun K M t _ => truncateTag_cmac_full K M t⟩

/-! ### CMAC and TRUNC -/

/-- Settles O44: both completions, and the TAG of the first truncated by the second. -/
theorem truncAfterFullCmacEqualsShortCmac : Obligations.TruncAfterFullCmacEqualsShortCmac := by
  unfold Obligations.TruncAfterFullCmacEqualsShortCmac
  intro s n hrun hfull _
  refine ⟨_, _, _, exec_busy_self .cmac hrun, exec_busy_self .trunc rfl,
    exec_busy_self .cmac (s := { s with tlen := n }) hrun, ?_⟩
  show truncateTag (cmac s.key (message s) s.tlen.toNat) n.toNat = cmac s.key (message s) n.toNat
  rw [hfull]
  exact truncateTag_cmac_full _ _ _

/-- Settles O12: TLEN is checked before MSG_LEN, the completion has the command's results, and the rule's two messages
are evaluated. -/
theorem cmacCompletesWithTheTag : Obligations.CmacCompletesWithTheTag := by
  unfold Obligations.CmacCompletesWithTheTag
  refine ⟨fun s => ⟨fun he htlen => ?_, fun he htlen hlen => ?_, fun he htlen hlen => ?_, exec_busy_self .cmac⟩,
    by decide +kernel⟩
  · exact exec_reported he (by rw [issueCheck, checkTlen_of_gt htlen]; rfl)
  · exact exec_reported he (by rw [issueCheck, checkTlen_of_le htlen, checkMsgLen, if_neg (not_le.mpr hlen)]; rfl)
  · exact exec_accepted he (issueCheck_cmac_eq_none htlen hlen)

/-- Settles O13: the issue by the one check of TLEN, the completion by the command's results, and the rule's tag
evaluated. -/
theorem truncCompletesWithTheTruncatedTag : Obligations.TruncCompletesWithTheTruncatedTag := by
  unfold Obligations.TruncCompletesWithTheTruncatedTag
  exact ⟨fun s => ⟨fun he htlen => exec_reported he (checkTlen_of_gt htlen),
    fun he htlen => exec_accepted he (checkTlen_of_le htlen), exec_busy_self .trunc⟩, by decide +kernel⟩

end Sys2Proof.Machine

/-! PROOFS. The CLEAR command (45_control.md R260, R261). -/

namespace Sys2Proof.Machine

/-- Settles O14: no check at the issue, and the command's results at the completion, whose schedule is 44 zero words. -/
theorem clearCompletesWithKeyMaterialZeroed : Obligations.ClearCompletesWithKeyMaterialZeroed := by
  unfold Obligations.ClearCompletesWithKeyMaterialZeroed
  exact fun s => ⟨fun he => exec_accepted he rfl, fun hrun =>
    ⟨_, exec_busy_self .clear hrun, rfl, fun k _ => schedByte_replicate_zero k⟩⟩

end Sys2Proof.Machine

/-! PROOFS. The error code: no error while the core is busy, and no InvalidKeyLength (60_exceptions.md R281, R287,
R291). -/

namespace Sys2Proof.Machine

/-- Settles O51: of the kinds of step a busy core can take, a read, a dropped write and a completion keep ERRCODE, and
a reset clears it. -/
theorem noErrorArisesWhileBusy : Obligations.NoErrorArisesWhileBusy := by
  unfold Obligations.NoErrorArisesWhileBusy
  intro s t op he hs
  cases transition_of_step hs with
  | nothing hidle | written hidle => rw [he] at hidle; cases hidle
  | read | dropped => exact .inl rfl
  | completion => exact .inl (by rw [finish_errcode, resultsOf_errcode, withPending_errcode])
  | reset hp => exact .inr ⟨rfl, _, hp⟩

/-- Settles O54: reset clears ERRCODE, and every step keeps the invariant of ERRCODE, since no issue check raises
InvalidKeyLength. -/
theorem invalidKeyLengthIsNeverRaised : Obligations.InvalidKeyLengthIsNeverRaised := by
  unfold Obligations.InvalidKeyLengthIsNeverRaised
  exact ⟨(machineInv_reset ⟨[], []⟩).errcode, fun _ _ => errcodeInv_step⟩

end Sys2Proof.Machine

/-! PROOFS. The key-change hazard: once KEY is written, ENCRYPT and DERIVE are refused, and they never run on a schedule of
another key (70_reset_and_hazards.md R333; 10_state.md R35, R46; 60_exceptions.md R284). -/

namespace Sys2Proof.Machine

/-! ### The check of ENCRYPT and DERIVE -/

/-- SCHED_VALID is the one check of the two commands that use SCHED as it stands (R284). -/
theorem issueCheck_eq_checkSched {i : Instr} (hi : i = .encrypt ∨ i = .derive) (s : State) :
    issueCheck i s = checkSched s := by
  obtain rfl | rfl := hi <;> rfl

theorem checkSched_eq_none_iff (s : State) : checkSched s = none ↔ s.schedValid = true := by simp [checkSched]

theorem checkSched_of_invalid {s : State} (h : s.schedValid = false) : checkSched s = some .scheduleNotValid :=
  if_neg (Bool.eq_false_iff.mp h)

/-- The write of a command's word to CMD while idle, when an issue check fails: the failure is reported (R95, R290). -/
theorem step_issue_reported {s : State} {i : Instr} {e : ErrCode} {rest : List Event} (he : s.eng = .idle)
    (hcheck : issueCheck i s = some e) (hp : s.port.pending = .write 0x0000#16 (encode i) :: rest) :
    step s = .next (raiseError e (clearReport (withPending s rest))) := by
  rw [step_write_cmd he hp rfl, issueWord_encode,
    exec_reported (s := withPending s rest) he (by rw [issueCheck_withPending, hcheck])]

/-! ### Between the KEY write and the command -/

theorem isHostEvent_of_offCmd {e : Event} (h : isHostEventOffCmd e = true) : isHostEvent e = true := by
  cases e with
  | write | read => rfl
  | complete | reset => cases h

/-- Only a completion sets SCHED_VALID, and an idle core has none to come (R27, R99). -/
theorem schedValid_false_of_step_idle {s t : State} (he : s.eng = .idle) (hs : step s = .next t)
    (hv : s.schedValid = false) : t.schedValid = false := by
  cases transition_of_step hs with
  | nothing | read => exact hv
  | completion hrun | dropped hrun => rw [he] at hrun; cases hrun
  | reset => rfl
  | @written off _ _ _ _ _ hw =>
    by_cases hkey : ∃ j, targetOf s.cap.bytes off = .key j
    · obtain ⟨j, hj⟩ := hkey
      rw [hj] at hw; cases hw; rfl
    · exact ((idleWrite_frame he hw).schedValid (not_exists.mp hkey)).trans hv

/-- t is an idle core that vouches for no schedule, with DOUT, K1 and K2 as in s: what holds from a KEY write on until
the next command (R333). -/
structure StaleSince (s t : State) : Prop where
  idle : t.eng = .idle
  invalid : t.schedValid = false
  dout : t.dout = s.dout
  k1 : t.k1 = s.k1
  k2 : t.k2 = s.k2

theorem staleSince_keyWrite {s : State} {j : Nat} {v : Word} {rest : List Event} (hj : j < 4) (he : s.eng = .idle)
    (hp : s.port.pending = .write (BitVec.ofNat 16 (0x0020 + 4 * j)) v :: rest) :
    ∃ t, step s = .next t ∧ t.port.pending = rest ∧ StaleSince s t :=
  ⟨_, step_write_idle_ofNat (tg := .key j) he hp (by omega) (by omega) (by simp only [StandsAt]; omega), rfl,
    he, rfl, rfl, rfl, rfl⟩

theorem staleSince_step_offCmd {s t : State} {e : Event} {rest : List Event} (h : StaleSince s t)
    (hoff : isHostEventOffCmd e = true) (hp : t.port.pending = e :: rest) :
    ∃ u, step t = .next u ∧ u.port.pending = rest ∧ StaleSince s u := by
  obtain ⟨u, hu, hidle, hpu, -⟩ := step_offCmd h.idle hoff hp
  obtain ⟨hdout, -, hk1, hk2, -⟩ := hostTransactionsKeepTheResults t u e rest (isHostEvent_of_offCmd hoff) hp hu
  exact ⟨u, hu, hpu, hidle, schedValid_false_of_step_idle h.idle hu h.invalid, hdout.trans h.dout, hk1.trans h.k1,
    hk2.trans h.k2⟩

theorem staleSince_runSteps_offCmd {s t : State} {es rest : List Event} (h : StaleSince s t)
    (hoff : ∀ e ∈ es, isHostEventOffCmd e = true) (hp : t.port.pending = es ++ rest) :
    ∃ u, runSteps es.length t = .next u ∧ u.port.pending = rest ∧ StaleSince s u := by
  induction es generalizing t with
  | nil => exact ⟨t, rfl, hp, h⟩
  | cons e es ih =>
    obtain ⟨hhead, htail⟩ := List.forall_mem_cons.mp hoff
    obtain ⟨u, hu, hpu, hstale⟩ := staleSince_step_offCmd (rest := es ++ rest) h hhead hp
    obtain ⟨w, hw, hpw, hstale'⟩ := ih hstale htail hpu
    exact ⟨w, (runSteps_succ hu es.length).trans hw, hpw, hstale'⟩

/-! ### The hazard -/

/-- While ENCRYPT or DERIVE runs, its issue check still passes, so SCHED_VALID is set and vouches for SCHED (R46). -/
theorem sched_eq_expand_of_running {s : State} {i : Instr} (hi : i = .encrypt ∨ i = .derive) (h : MachineInv s)
    (hrun : s.eng = .busy i) : s.sched = expand s.key := by
  obtain ⟨hcheck, -, -⟩ := h.engine i hrun
  obtain ⟨hsched, -⟩ := h.cache
  rw [issueCheck_eq_checkSched hi] at hcheck
  exact hsched ((checkSched_eq_none_iff s).mp hcheck)

/-- Settles O48: the KEY write leaves the core idle with no valid schedule, the transactions off CMD keep it so, and the
command's check then fails; a running command's check has passed. -/
theorem staleScheduleIsNeverUsed : Obligations.StaleScheduleIsNeverUsed := by
  unfold Obligations.StaleScheduleIsNeverUsed
  refine ⟨fun s i j v es rest hi hj he hoff hp => ?_, fun s i => sched_eq_expand_of_running⟩
  obtain ⟨t, hkey, hpt, hstale⟩ := staleSince_keyWrite hj he hp
  obtain ⟨u, hrun, hpu, hidle, hinvalid, hdout, hk1, hk2⟩ := staleSince_runSteps_offCmd hstale hoff hpt
  have hcheck : issueCheck i u = some .scheduleNotValid :=
    (issueCheck_eq_checkSched hi u).trans (checkSched_of_invalid hinvalid)
  have hissue := step_issue_reported hidle hcheck hpu
  refine ⟨raiseError .scheduleNotValid (clearReport (withPending u rest)), ?_, hidle, rfl, rfl, hdout, hk1, hk2⟩
  calc runSteps (es.length + 2) s
    _ = runSteps (es.length + 1) t := runSteps_succ hkey _
    _ = runSteps 1 u := runSteps_add hrun 1
    _ = .next _ := runSteps_succ hissue 0

end Sys2Proof.Machine
